-- ==== Sys2Proof/Word.lean ====
section
/-! DEFINITION. The widths that move in SHA256-CORE (spec 20_memory.md R61, 30_encoding.md R80, R82), as bit vectors: the spec
adds, shifts and slices all of them. -/

namespace Sys2Proof

/-- A word: 32 bits, unsigned (00_scope.md section 5.1, R110). -/
abbrev Word := BitVec 32

/-- A byte: 8 bits (00_scope.md section 5.1). -/
abbrev Byte := BitVec 8

/-- An opcode, CW[71:64] (R82). -/
abbrev Opcode := BitVec 8

/-- The LEN field of a command word, CW[63:0]: a plain unsigned count of payload units (R82, R83). -/
abbrev Len := BitVec 64

/-- A command word: 72 bits, one transfer on the command channel (R82). -/
abbrev CommandWord := BitVec 72

/-- The eight words of the spec's "State", H[0..7] (R20). Named so because `State` is the machine's whole state here. -/
abbrev HashState := Vector Word 8

/-- A Block in word view, BLKW[0..15] (R28). -/
abbrev Block := Vector Word 16

/-- A Block in byte view, BLKB[0..63] (R28). -/
abbrev BlockBytes := Vector Byte 64

/-- The message schedule W[0..63] (R24). -/
abbrev Schedule := Vector Word 64

/-- The eight working registers a..h (R23), a set distinct from H (R21, 90_conflicts.md C10). -/
structure Work where
  a : Word
  b : Word
  c : Word
  d : Word
  e : Word
  f : Word
  g : Word
  h : Word
  deriving DecidableEq, Repr

end Sys2Proof
end

