-- ==== Sys2Proof/Machine/Tables.lean ====
section
/-! DEFINITION. The constant tables K and IV (10_state.md R25, R26). Both are read-only: no command, port or reset writes them
(R27), so they are constants of the model and no part of State. Their values are the spec's, which marks them as general
knowledge (93_implementation_defined.md G1, G2; log entry 17). -/

namespace Sys2Proof.Machine

/-- Word j of a printed row of eight, the leftmost being word 0. -/
def rowWord (row : BitVec 256) (j : Nat) : Word := row.extractLsb' (224 - 32 * j) 32

/-- The table of R25, row by row as it is printed there: row r holds K[8r] to K[8r+7]. -/
def kRow : Fin 8 → BitVec 256
  | 0 => 0x428a2f98_71374491_b5c0fbcf_e9b5dba5_3956c25b_59f111f1_923f82a4_ab1c5ed5
  | 1 => 0xd807aa98_12835b01_243185be_550c7dc3_72be5d74_80deb1fe_9bdc06a7_c19bf174
  | 2 => 0xe49b69c1_efbe4786_0fc19dc6_240ca1cc_2de92c6f_4a7484aa_5cb0a9dc_76f988da
  | 3 => 0x983e5152_a831c66d_b00327c8_bf597fc7_c6e00bf3_d5a79147_06ca6351_14292967
  | 4 => 0x27b70a85_2e1b2138_4d2c6dfc_53380d13_650a7354_766a0abb_81c2c92e_92722c85
  | 5 => 0xa2bfe8a1_a81a664b_c24b8b70_c76c51a3_d192e819_d6990624_f40e3585_106aa070
  | 6 => 0x19a4c116_1e376c08_2748774c_34b0bcb5_391c0cb3_4ed8aa4a_5b9cca4f_682e6ff3
  | 7 => 0x748f82ee_78a5636f_84c87814_8cc70208_90befffa_a4506ceb_bef9a3f7_c67178f2

/-- The round constants K[0..63] (R25). -/
def K : Vector Word 64 :=
  Vector.ofFn fun i : Fin 64 => rowWord (kRow ⟨i.val / 8, by omega⟩) (i.val % 8)

/-- The initial constants IV[0..7] (R26). -/
def IV : HashState :=
  Vector.ofFn fun j : Fin 8 => rowWord 0x6a09e667_bb67ae85_3c6ef372_a54ff53a_510e527f_9b05688c_1f83d9ab_5be0cd19 j.val

end Sys2Proof.Machine
end

