-- ==== Sys2Proof/Machine/State.lean ====
section
/-! DEFINITION. The state of one core (10_state.md, "the complete list of state is the one in this file", R39), with what the
host has presented on its input ports, and the state after reset. -/

namespace Sys2Proof.Machine

/-- The sequencer's PHASE: "takes one of six values" (R33). Its encoding is not observable (93_implementation_defined.md U4). -/
inductive Phase where
  /-- No command in progress. -/
  | idle
  /-- The block buffer is being filled with block BIDX. -/
  | load
  /-- The message schedule is being built from the block buffer. -/
  | sched
  /-- The 64 rounds are running; T is the round number. -/
  | round
  /-- The working registers are being added into H. -/
  | add
  /-- A fault is latched; nothing happens until reset. -/
  | halt
  deriving DecidableEq, Repr

/-- PASS (R30): 0 in every command except the second hash of DHASH, where it is 1. -/
inductive Pass where
  /-- PASS = 0. -/
  | first
  /-- PASS = 1. -/
  | second
  deriving DecidableEq, Repr

/-- STATUS.CAUSE (R31): "0 = no fault, 1 = InvalidLength, 2 = IllegalCommand; 3 is never produced". -/
inductive Cause where
  | noFault
  /-- A defined opcode with an illegal LEN (R231). -/
  | invalidLength
  /-- A reserved opcode (R232). -/
  | illegalCommand
  deriving DecidableEq, Repr

/-- The STATUS register by its fields (R31, R32); its 8-bit view is `Status.bits`. -/
structure Status where
  /-- Bit 0: 1 from the acceptance of a command to its completion or fault. -/
  busy : Bool
  /-- Bit 1: 1 once any command has faulted, sticky until reset. -/
  fault : Bool
  /-- Bits 3:2. -/
  cause : Cause
  deriving DecidableEq, Repr

/-- The reasons for a step to stop the machine with a fault: none. The core's two faults, InvalidLength and IllegalCommand
(R230), are latched in STATUS by a step that has a next state, the fault entry of R234 (log entry 10). -/
inductive Fault where
  deriving DecidableEq, Repr

/-- The reasons for a command to have no meaning. -/
inductive Refusal where
  /-- Raised by exec for a command that has no meaning yet; no arm raises it. Safe: nothing is said of the command. -/
  | notModelled (mnemonic : String)
  /-- Raised by HASH and DHASH with LEN >= 2^61: "refuse: the command word is outside the domain of the model; it neither
  faults nor computes" (93_implementation_defined.md U1, D13; log entry 7). Safe: nothing is said of such a command. -/
  | messageTooLong (len : Len)
  /-- Raised by a command handed to `exec` while `cmd_ready` = 0: "refuse: cmd_ready is 0, so there is no such acceptance"
  (93_implementation_defined.md U11; log entry 9). Safe, and no step does it: `step` accepts a command only when `cmd_ready`
  is 1 (R95). -/
  | notAccepted
  /-- Raised by a host action that lets `cmd_valid` or `pl_valid` fall before the transfer where the spec does not provide for it:
  "refuse: the model assumes the duty is met" (93_implementation_defined.md U5, R245, R267; log entry 22). Safe, and no step does
  it: nothing is said of such a host. -/
  | handshakeBroken
  deriving DecidableEq, Repr

/-- The state of one core. -/
structure State where
  /-- The State register H[0..7] (R20). -/
  h : HashState
  /-- STATUS (R31). -/
  status : Status
  /-- The sequencer's PHASE (R33). -/
  phase : Phase
  /-- PASS (R30). -/
  pass : Pass
  /-- BIDX, the index of the block being loaded or compressed (R30). -/
  bidx : Nat
  /-- NBLK, the number of blocks of the current pass (R30). -/
  nblk : Nat
  /-- T, the round number (R30). -/
  t : Fin 64
  /-- RCNT, payload units consumed so far in this command (R30). -/
  rcnt : Nat
  /-- LCNT, elements of the current block already written: what "element e of the block not yet written" of R195 needs
  (DEDUCED, log entry 4). -/
  lcnt : Nat
  /-- OPR, the latched opcode (R29). -/
  opr : Opcode
  /-- MLEN, the latched LEN (R29). -/
  mlen : Len
  /-- The working registers a..h (R23). -/
  work : Work
  /-- The message schedule W[0..63] (R24). -/
  w : Schedule
  /-- The block buffer in its byte view BLKB[0..63] (R28); the word view is computed. -/
  blkb : BlockBytes
  /-- The level of the reset pin `rst` (R80, R260). -/
  rst : Bool
  /-- Command words the host presents and the core has not accepted, the one on the ports first (R81; log entry 2). -/
  cmdQ : List CommandWord
  /-- Payload units waiting on the payload channel, the one on the ports first (R55, R87; log entry 3). -/
  plQ : List Word
  /-- The model's own: how often `state_o` was sampled while BUSY = 1; it selects the free value shown (log entry 6). -/
  obs : Nat
  deriving DecidableEq, Repr

/-- The state after reset (R38, R261), with nothing presented by the host and `rst` released. The transients, which the spec
leaves unspecified, are zero (DESIGN CHOICE, log entry 5). -/
def State.reset : State where
  h := IV
  status := ⟨false, false, .noFault⟩
  phase := .idle
  pass := .first
  bidx := 0
  nblk := 0
  t := 0
  rcnt := 0
  lcnt := 0
  opr := 0
  mlen := 0
  work := ⟨0, 0, 0, 0, 0, 0, 0, 0⟩
  w := Vector.replicate 64 0
  blkb := Vector.replicate 64 0
  rst := false
  cmdQ := []
  plQ := []
  obs := 0

end Sys2Proof.Machine
end

