-- ==== Sys2Proof/Machine/Flags.lean ====
section
/-! DEFINITION. The STATUS register's bits and what sets, clears and reads its three flags (10_state.md R31, R32). There are no
arithmetic condition codes (R32, R110). -/

namespace Sys2Proof.Machine

/-- The cause code latched in STATUS.CAUSE (R31, R230). -/
def Cause.code : Cause → BitVec 2
  | .noFault => 0#2
  | .invalidLength => 1#2
  | .illegalCommand => 2#2

/-- STATUS as 8 bits: zero in 7:4, CAUSE in 3:2, FAULT in 1, BUSY in 0 (R31). -/
def Status.bits (st : Status) : BitVec 8 :=
  0#4 ++ st.cause.code ++ BitVec.ofBool st.fault ++ BitVec.ofBool st.busy

/-- BUSY is set at the acceptance of any command (R32, R81). -/
def Status.accepted (st : Status) : Status := { st with busy := true }

/-- BUSY is cleared at completion; the other flags do not change (R32, R198). -/
def Status.completed (st : Status) : Status := { st with busy := false }

/-- Fault entry: FAULT <- 1, CAUSE <- c, BUSY <- 0 (R32, R234). -/
def Status.faulted (_ : Status) (c : Cause) : Status := ⟨false, true, c⟩

/-- `cmd_ready = 1` exactly when `rst = 0`, BUSY = 0 and FAULT = 0 (R95); under `Inv` that is PHASE = IDLE with `rst` = 0. -/
def State.cmdReady (s : State) : Bool := !s.rst && !s.status.busy && !s.status.fault

end Sys2Proof.Machine
end

