-- ==== Sys2Proof/Syntax.lean ====
section
/-! DEFINITION. The six commands of the core (30_encoding.md R84), each with the one operand the command format has, LEN (R82:
"There is no register field, no immediate, no mode field and no second format"). The payload is not part of the command word:
it waits on the payload channel (R53, R87). -/

namespace Sys2Proof

inductive Instr where
  /-- `init() -> State` (42_hasher.md R180). -/
  | init (len : Len)
  /-- `compress_bytes` (41_compressor.md R152). -/
  | cmpb (len : Len)
  /-- `compress_words` (41_compressor.md R153). -/
  | cmpw (len : Len)
  /-- `midstate` (42_hasher.md R191). -/
  | midstate (len : Len)
  /-- `hash` (42_hasher.md R188). -/
  | hash (len : Len)
  /-- `double_hash` (42_hasher.md R189). -/
  | dhash (len : Len)
  deriving DecidableEq, Repr

/-- The LEN field of a command (R82). -/
def Instr.len : Instr → Len
  | .init l => l
  | .cmpb l => l
  | .cmpw l => l
  | .midstate l => l
  | .hash l => l
  | .dhash l => l

end Sys2Proof
end

