-- ==== Sys2Proof/Decode.lean ====
section
/-! DEFINITION. Command word to command and back (30_encoding.md R82, R84, R85, R90 step 1). The decoder is total: every one of
the 2^72 command words is a command or is rejected by name (R86, R90). Step 2 of R90, the check of LEN, is part of each
command's meaning, as the pseudocode of R152, R153, R180 and R191 has it. -/

namespace Sys2Proof

/-- Why a command word is no command. -/
inductive DecodeError where
  /-- Opcodes 0x00 and 0x07 to 0xFF (R85): the machine takes IllegalCommand. -/
  | reservedOpcode (op : Opcode)
  deriving DecidableEq, Repr

/-- OP = CW[71:64] (R82). -/
def opField (cw : CommandWord) : Opcode := cw.extractLsb' 64 8

/-- LEN = CW[63:0] (R82). -/
def lenField (cw : CommandWord) : Len := cw.extractLsb' 0 64

/-- The opcode of a command (R84). -/
def Instr.opcode : Instr → Opcode
  | .init _ => 0x01#8
  | .cmpb _ => 0x02#8
  | .cmpw _ => 0x03#8
  | .midstate _ => 0x04#8
  | .hash _ => 0x05#8
  | .dhash _ => 0x06#8

/-- The opcode map (R84) applied to the two fields of the command word. -/
def decodeFields (op : Opcode) (len : Len) : Except DecodeError Instr :=
  if op = 0x01#8 then .ok (.init len)
  else if op = 0x02#8 then .ok (.cmpb len)
  else if op = 0x03#8 then .ok (.cmpw len)
  else if op = 0x04#8 then .ok (.midstate len)
  else if op = 0x05#8 then .ok (.hash len)
  else if op = 0x06#8 then .ok (.dhash len)
  else .error (.reservedOpcode op)

/-- Decoding of a command word. -/
def decode (cw : CommandWord) : Except DecodeError Instr := decodeFields (opField cw) (lenField cw)

/-- The encoding of a command: CW = OP ++ LEN (R82, R91). -/
def encode (i : Instr) : CommandWord := i.opcode ++ i.len

/-- The command word that the opcode table's number w stands for: the table writes CW as one number, bit 0 its least
significant bit (`match` 0x01 followed by sixteen zero digits is OP = 0x01). Bits at and above nbits are 0; a number that does
not fit the 72 bits of R82 is no command word. -/
def tableWord (nbits w : Nat) : Option CommandWord :=
  if w % 2 ^ nbits < 2 ^ 72 then some (BitVec.ofNat 72 (w % 2 ^ nbits)) else none

/-- What the decoder reads from the opcode table's word w of nbits bits. -/
def decodeTableWord (nbits w : Nat) : Option Instr :=
  match tableWord nbits w with
  | none => none
  | some cw =>
    match decode cw with
    | .ok i => some i
    | .error _ => none

end Sys2Proof
end

