-- ==== Sys2Proof/Machine/Functions.lean ====
section
/-! DEFINITION. 32-bit arithmetic, the logical functions and the endian conversions (40_functions.md R110 to R125). None has a
flag, an exception or a corner case (R124). -/

namespace Sys2Proof.Machine

/-- `add32(x, y) = (x + y) mod 2^32`: silent wraparound, the carry is not observable (R110). -/
def add32 (x y : Word) : Word := x + y

/-- Rotation right by a constant n, 1 <= n <= 31, in the shift form of R113. -/
def rotr (x : Word) (n : Nat) : Word := (x >>> n) ||| (x <<< (32 - n))

/-- Logical shift right, `floor(x / 2^n)` (R114). -/
def shr (x : Word) (n : Nat) : Word := x >>> n

/-- The schedule function written as a small sigma with index 0 (R116). -/
def ssig0 (x : Word) : Word := rotr x 7 ^^^ rotr x 18 ^^^ shr x 3

/-- The schedule function written as a small sigma with index 1 (R117). -/
def ssig1 (x : Word) : Word := rotr x 17 ^^^ rotr x 19 ^^^ shr x 10

/-- The round function written as a capital sigma with index 0 (R118). -/
def bsig0 (x : Word) : Word := rotr x 2 ^^^ rotr x 13 ^^^ rotr x 22

/-- The round function written as a capital sigma with index 1 (R119). -/
def bsig1 (x : Word) : Word := rotr x 6 ^^^ rotr x 11 ^^^ rotr x 25

/-- The choice function `Ch` (R120). -/
def ch (x y z : Word) : Word := (x &&& y) ^^^ (~~~x &&& z)

/-- The majority function `Maj` (R121). -/
def maj (x y z : Word) : Word := (x &&& y) ^^^ (x &&& z) ^^^ (y &&& z)

/-- Four bytes as a word, first byte most significant (R122). -/
def be32 (b0 b1 b2 b3 : Byte) : Word := b0 ++ b1 ++ b2 ++ b3

/-- Byte k of `unbe32(w)`, k in 0..3: bits 31-8k down to 24-8k of w (R50, R122). -/
def wordByte (w : Word) (k : Nat) : Byte := w.extractLsb' (24 - 8 * k) 8

/-- `unbe32(w) = (w[31:24], w[23:16], w[15:8], w[7:0])` (R122). -/
def unbe32 (w : Word) : List Byte := [wordByte w 0, wordByte w 1, wordByte w 2, wordByte w 3]

/-- `be64(n)`: the eight bytes of n mod 2^64, most significant first (R123, 00_scope.md section 5.2). -/
def be64 (n : Nat) : List Byte :=
  (List.range 8).map fun k => (BitVec.ofNat 64 n).extractLsb' (56 - 8 * k) 8

end Sys2Proof.Machine
end

