-- ==== Sys2Proof/Machine/Compress.lean ====
section
/-! DEFINITION. The Compressor as functions of values (41_compressor.md R141 to R151): message schedule, round, add-back, the
compression function, and the packing of bytes into words. -/

namespace Sys2Proof.Machine

/-- MSX load: W[0..15] are the block's words, copied without change (R141); the other words wait for `expandWord`. -/
def scheduleLoad (B : Block) : Schedule :=
  Vector.ofFn fun i : Fin 64 => if h : i.val < 16 then B[i.val] else 0

/-- MSX expand, one step: with i = k + 16, `W[i] <- W[i-16] +32 W[i-7] +32 ssig0(W[i-15]) +32 ssig1(W[i-2])` (R142). -/
def expandWord (W : Schedule) (k : Fin 48) : Schedule :=
  W.set (k.val + 16)
    (add32 (add32 (add32 W[k.val] W[k.val + 9]) (ssig0 W[k.val + 1])) (ssig1 W[k.val + 14]))

/-- `schedule(B)`: R141, then R142 for i = 16, ..., 63 in ascending order (R143). -/
def schedule (B : Block) : Schedule := (List.finRange 48).foldl expandWord (scheduleLoad B)

/-- RND copy: the working registers take the value of H (R144, pairing of R21). -/
def workOf (S : HashState) : Work := ⟨S[0], S[1], S[2], S[3], S[4], S[5], S[6], S[7]⟩

/-- T1 of a round (R145), with the round's K and W words. -/
def roundT1 (r : Work) (k w : Word) : Word :=
  add32 (add32 (add32 (add32 r.h (bsig1 r.e)) (ch r.e r.f r.g)) k) w

/-- T2 of a round (R145). -/
def roundT2 (r : Work) : Word := add32 (bsig0 r.a) (maj r.a r.b r.c)

/-- One round: all eight registers written at once from their old values (R145, R147). -/
def roundStep (r : Work) (k w : Word) : Work :=
  ⟨add32 (roundT1 r k w) (roundT2 r), r.a, r.b, r.c, add32 r.d (roundT1 r k w), r.e, r.f, r.g⟩

/-- Rounds 0 to 63 in ascending order, round i with W[i] and K[i] (R146). -/
def rounds (W : Schedule) (r : Work) : Work :=
  (List.finRange 64).foldl (fun r i => roundStep r K[i] W[i]) r

/-- SREG add-back: each working register is added into its State word (R148). -/
def addBack (S : HashState) (r : Work) : HashState := #v[
  add32 S[0] r.a, add32 S[1] r.b, add32 S[2] r.c, add32 S[3] r.d,
  add32 S[4] r.e, add32 S[5] r.f, add32 S[6] r.g, add32 S[7] r.h]

/-- The compression function `compress(S, B)` (R150). -/
def compress (S : HashState) (B : Block) : HashState := addBack S (rounds (schedule B) (workOf S))

/-- `pack(Y)[j] = be32(Y[4j], Y[4j+1], Y[4j+2], Y[4j+3])` (R50, R151). -/
def pack (Y : BlockBytes) : Block :=
  Vector.ofFn fun j : Fin 16 =>
    be32 Y[4 * j.val] Y[4 * j.val + 1] Y[4 * j.val + 2] Y[4 * j.val + 3]

/-- `unpack(B)`, the inverse of `pack`: byte 4j+k is byte k of word j (R50, R151). -/
def unpack (B : Block) : BlockBytes :=
  Vector.ofFn fun i : Fin 64 => wordByte B[i.val / 4] (i.val % 4)

end Sys2Proof.Machine
end

