-- ==== Sys2Proof/Machine/Padding.lean ====
section
/-! DEFINITION. The Hasher as functions of values (42_hasher.md R181 to R190): padder, chunker, driver, serializer. A message is
a list of bytes, first byte first. -/

namespace Sys2Proof.Machine

/-- The number z of zero bytes of the padding, `(55 - L) mod 64`, in 0..63 (R181). -/
def zeroCount (L : Nat) : Nat := ((55 - (L : Int)) % 64).toNat

/-- `pad(M) = M ++ [0x80] ++ z*[0x00] ++ be64(8*L)` (R181). -/
def pad (M : List Byte) : List Byte :=
  M ++ [0x80] ++ List.replicate (zeroCount M.length) 0x00 ++ be64 (8 * M.length)

/-- The number of blocks, `nblocks(L) = floor((L + 8) / 64) + 1` (R182). -/
def nblocks (L : Nat) : Nat := (L + 8) / 64 + 1

/-- The pad generator: byte k of the padded message of an L-byte message, for k >= L: cases 2 to 4 of R183. -/
def padByte (L k : Nat) : Byte :=
  if k = L then 0x80
  else if k < 64 * nblocks L - 8 then 0x00
  else (be64 (8 * L)).getD (k - (64 * nblocks L - 8)) 0x00

/-- Byte k of the padded message P, without building the sequence (R183). -/
def paddedByte (M : List Byte) (k : Nat) : Byte := M.getD k (padByte M.length k)

/-- The chunker: block n is `P[64n .. 64n+63]` (R57, R184). -/
def messageBlock (M : List Byte) (n : Nat) : BlockBytes :=
  Vector.ofFn fun i : Fin 64 => paddedByte M (64 * n + i.val)

/-- The driver: from S, blocks 0, ..., n-1 compressed in order, each into the State the one before left (R185). -/
def chainFrom (M : List Byte) (S : HashState) (n : Nat) : HashState :=
  (List.range n).foldl (fun S k => compress S (pack (messageBlock M k))) S

/-- `chain(M)`: from IV, once per block of the padded message (R185). -/
def chain (M : List Byte) : HashState := chainFrom M IV (nblocks M.length)

/-- `ser(S)`: 32 bytes, word 0 first, each word big-endian (R186). -/
def ser (S : HashState) : List Byte := S.toList.flatMap unbe32

/-- `sha256(M) = ser(chain(M))` (R187). -/
def sha256 (M : List Byte) : List Byte := ser (chain M)

/-- Byte e of the second-pass block of DHASH: the serializer's 32 bytes, then their padding (R183, R190). -/
def block2Byte (S : HashState) (e : Nat) : Byte := paddedByte (ser S) e

/-- The second-pass block of DHASH, `block2(S) = pad(ser(S))`, in byte form (R190). -/
def block2 (S : HashState) : BlockBytes := Vector.ofFn fun i : Fin 64 => block2Byte S i.val

end Sys2Proof.Machine
end

