-- ==== Sys2Proof/Machine/Operands.lean ====
section
/-! DEFINITION. Where operands come from: the unit each opcode takes (20_memory.md R53), the payload channel (R54, R55), the two
views of the block buffer (R50, R51), and the source of each block element in LOAD (42_hasher.md R196). -/

namespace Sys2Proof.Machine

/-- Whether the payload unit of an opcode is a 32-bit word: CMPW and MIDSTATE; it is a byte for CMPB, HASH and DHASH (R53).
INIT has no payload and never loads. -/
def wordUnit (op : Opcode) : Bool := op == 0x03#8 || op == 0x04#8

/-- The number of elements of a block in the LOAD phase of an opcode: 16 words or 64 bytes (R33, R196). -/
def blockElements (op : Opcode) : Nat := if wordUnit op then 16 else 64

/-- A byte unit is carried on `pl_data[7:0]`; the upper bits are ignored, whatever they hold (R54). -/
def unitByte (u : Word) : Byte := u.extractLsb' 0 8

/-- `PayloadNext()`: the next unit on the channel and the state once it is taken, with 1 added to RCNT; none while the host
presents no unit (R55). -/
def payloadNext (s : State) : Option (Word × State) :=
  match s.plQ with
  | [] => none
  | u :: rest => some (u, { s with plQ := rest, rcnt := s.rcnt + 1 })

/-- The word view BLKW of the block buffer (R50). -/
def State.blkw (s : State) : Block := pack s.blkb

/-- `MemRead(BLK, i, 1)` (R51). -/
def memRead1 (b : BlockBytes) (i : Fin 64) : Byte := b[i]

/-- `MemRead(BLK, 4j, 4)`: the bytes BLKB[4j..4j+3] taken big-endian (R51). -/
def memRead4 (b : BlockBytes) (j : Fin 16) : Word := (pack b)[j]

/-- `MemWrite(BLK, i, 1, v)` (R51). No rule forms an index outside 0..63 (R60). -/
def memWrite1 (b : BlockBytes) (i : Nat) (v : Byte) : BlockBytes := b.setIfInBounds i v

/-- `MemWrite(BLK, 4j, 4, v)`: the bytes of v, most significant first (R51). No rule forms a j outside 0..15 (R60). -/
def memWrite4 (b : BlockBytes) (j : Nat) (v : Word) : BlockBytes :=
  (((b.setIfInBounds (4 * j) (wordByte v 0)).setIfInBounds (4 * j + 1) (wordByte v 1)).setIfInBounds
    (4 * j + 2) (wordByte v 2)).setIfInBounds (4 * j + 3) (wordByte v 3)

/-- The source of a block element (R196): the payload channel, or a byte the core makes itself (pad generator, or serializer in
the second pass of DHASH). -/
inductive Source where
  | payload
  | generated (b : Byte)
  deriving DecidableEq, Repr

/-- The source of element LCNT of block BIDX, row by row of R196. An opcode outside R196's rows never reaches LOAD (`Inv`); it
would be read as HASH is (DESIGN CHOICE, log entry 18). -/
def elementSource (s : State) : Source :=
  match s.pass with
  | .second => .generated (block2Byte s.h s.lcnt)
  | .first =>
    if s.opr = 0x02#8 ∨ s.opr = 0x03#8 ∨ s.opr = 0x04#8 then .payload
    else if 64 * s.bidx + s.lcnt < s.mlen.toNat then .payload
    else .generated (padByte s.mlen.toNat (64 * s.bidx + s.lcnt))

/-- The block has an element not yet written, and it is to come from the payload (the second half of R96). -/
def needsPayload (s : State) : Bool :=
  s.phase == .load && decide (s.lcnt < blockElements s.opr) && elementSource s == .payload

/-- `pl_ready = 1` exactly when PHASE = LOAD and the next element of the block buffer is to come from the payload (R96); it is
0 while `rst` = 1 (R260). -/
def State.plReady (s : State) : Bool := !s.rst && needsPayload s

/-- The core waits in LOAD for a unit the host has not presented (R55, R247). -/
def starved (s : State) : Bool := needsPayload s && s.plQ.isEmpty

end Sys2Proof.Machine
end

