-- ==== Sys2Proof/Machine/Ops.lean ====
section
/-! DEFINITION. The shared operations on the state: acceptance of a command, fault entry and the one way out of it, the two ways
H is written, completion, and the start of a LOAD phase. -/

namespace Sys2Proof.Machine

/-- What one step answers. -/
abbrev StepResult := Host.Outcome State Fault Refusal

/-- Acceptance of a command: `OPR <- cmd_op`, `MLEN <- cmd_len`, `RCNT <- 0`, `BUSY <- 1` (R81). -/
def accept (op : Opcode) (len : Len) (s : State) : State :=
  { s with opr := op, mlen := len, rcnt := 0, status := s.status.accepted }

/-- FAULT ENTRY, `raise X` with cause c: `FAULT <- 1`, `CAUSE <- c`, `BUSY <- 0`, `PHASE <- HALT`, in one step, and nothing is
saved anywhere else (R234). H and the payload channel are kept (R235). -/
def raise (c : Cause) (s : State) : State :=
  { s with status := s.status.faulted c, phase := .halt }

/-- RESET, the only way out of HALT (R237): the state of R261 "whatever state it was in" (R260, R262). What the host has
presented stays with the host: reset consumes no payload unit and no command word (R261), and `rst` is the host's pin. The
model's own sample counter is kept. -/
def resetEdge (s : State) : State :=
  { State.reset with rst := s.rst, cmdQ := s.cmdQ, plQ := s.plQ, obs := s.obs }

/-- All eight words of H are set to IV (R22 case 1). -/
def loadIV (s : State) : State := { s with h := IV }

/-- All eight words of H are replaced by the add-back (R22 case 2, R148). -/
def addBackH (s : State) : State := { s with h := addBack s.h s.work }

/-- Completion: PHASE goes back to IDLE and BUSY falls (R198). -/
def complete (s : State) : State := { s with status := s.status.completed, phase := .idle }

/-- The sequencer moves to the LOAD phase of block n of N in pass p: no element of it is written yet (R195). -/
def enterLoad (p : Pass) (n N : Nat) (s : State) : State :=
  { s with phase := .load, pass := p, bidx := n, nblk := N, lcnt := 0 }

/-- A command is accepted only when `cmd_ready` is 1 (R81, R95); there is no acceptance otherwise, and "refuse" is the treatment
93_implementation_defined.md U11 gives it (log entry 9). -/
def whenReady (s : State) (k : State → StepResult) : StepResult :=
  if s.cmdReady then k s else .refused .notAccepted

end Sys2Proof.Machine
end

