-- ==== Sys2Proof/Machine/Sequencer.lean ====
section
/-! DEFINITION. The sequencer SEQ: one micro-step by the table of 42_hasher.md R195, and the run of micro-steps that carries an
accepted command to its completion, or to the point where it waits for the host (R198, R247). -/

namespace Sys2Proof.Machine

/-- The LOAD row "element e of the block not yet written": write element LCNT from its source (R195, R196). A word unit is
stored as it arrives, without a byte swap; a byte unit likewise (R56). Without a unit on the channel the core waits (R55). -/
def loadElement (s : State) : State :=
  match elementSource s with
  | .generated b => { s with blkb := memWrite1 s.blkb s.lcnt b, lcnt := s.lcnt + 1 }
  | .payload =>
    match payloadNext s with
    | none => s
    | some (u, s') =>
      { s' with
        blkb := if wordUnit s.opr then memWrite4 s.blkb s.lcnt u else memWrite1 s.blkb s.lcnt (unitByte u)
        lcnt := s.lcnt + 1 }

/-- The LOAD rows "all elements written": to SCHED; in PASS 1 with `H <- IV` (R195). -/
def endLoad (s : State) : State :=
  match s.pass with
  | .first => { s with phase := .sched }
  | .second => { loadIV s with phase := .sched }

/-- The SCHED row: `W <- schedule(BLKW)`, `(a..h) <- H`, `T <- 0` (R195). -/
def schedStep (s : State) : State :=
  { s with w := schedule s.blkw, work := workOf s.h, t := 0, phase := .round }

/-- The ROUND rows: round T with W[T] and K[T]; after round 63 the add-back (R195, R146). -/
def roundMicro (s : State) : State :=
  let s' := { s with work := roundStep s.work K[s.t] s.w[s.t] }
  if s.t.val < 63 then { s' with t := s.t + 1 } else { s' with phase := .add }

/-- The second pass of DHASH is still to come: "OPR = DHASH, PASS = 0" (R195). -/
def secondPassDue (s : State) : Bool := s.opr == 0x06#8 && s.pass == .first

/-- The ADD rows: add-back, then the next block, the second pass of DHASH, or completion (R195). -/
def addStep (s : State) : State :=
  if s.bidx + 1 < s.nblk then enterLoad s.pass (s.bidx + 1) s.nblk (addBackH s)
  else if secondPassDue s then enterLoad .second 0 1 (addBackH s)
  else complete (addBackH s)

/-- One micro-step of the sequencer: "in every state exactly one row applies" (R195). In IDLE the core does nothing until a
command arrives (R242), in HALT nothing until reset (R236). -/
def microStep (s : State) : State :=
  match s.phase with
  | .idle => s
  | .load => if s.lcnt < blockElements s.opr then loadElement s else endLoad s
  | .sched => schedStep s
  | .round => roundMicro s
  | .add => addStep s
  | .halt => s

/-- A command is in progress: PHASE is neither IDLE nor HALT (R33). -/
def State.running (s : State) : Bool :=
  match s.phase with
  | .idle => false
  | .load => true
  | .sched => true
  | .round => true
  | .add => true
  | .halt => false

/-- A micro-step is enabled: a command is in progress and it does not wait for the host (R275). -/
def State.enabled (s : State) : Bool := s.running && !starved s

/-- Micro-steps from the start of the LOAD of a block to its add-back: the elements, the move to SCHED, SCHED, 64 rounds, ADD
(R195; R201 counts the move with SCHED, log entry 16). -/
def blockMicros (op : Opcode) : Nat := blockElements op + 67

/-- Micro-steps that follow the add-back of the current block: the blocks left in the pass, and the second pass of DHASH, which
has one block (R195, R201). -/
def microsAfterBlock (s : State) : Nat :=
  (s.nblk - (s.bidx + 1)) * blockMicros s.opr +
    if secondPassDue s then blockMicros s.opr else 0

/-- How many micro-steps the command in progress still takes, if the payload is supplied. Each bound is fixed at acceptance and
no data enters it (R277). -/
def microsLeft (s : State) : Nat :=
  match s.phase with
  | .idle => 0
  | .load => (blockElements s.opr - s.lcnt) + 67 + microsAfterBlock s
  | .sched => 66 + microsAfterBlock s
  | .round => (64 - s.t.val) + 1 + microsAfterBlock s
  | .add => 1 + microsAfterBlock s
  | .halt => 0

/-- At most n micro-steps, ending early where none is enabled. -/
def runMicros : Nat → State → State
  | 0, s => s
  | n + 1, s => if s.enabled then runMicros n (microStep s) else s

/-- The command in progress runs until it completes or waits for the host (R9, R198, R247). -/
def settle (s : State) : State := runMicros (microsLeft s) s

/-- A step's answer with its next state run until it completes or waits for the host. -/
def settled : StepResult → StepResult
  | .next s => .next (settle s)
  | .fault f => .fault f
  | .refused r => .refused r

end Sys2Proof.Machine
end

