-- ==== Sys2Proof/Machine/Compressor.lean ====
section
/-! DEFINITION. The Compressor's commands CMPB and CMPW (41_compressor.md R152, R153). Of each command, `begin...` is its IDLE
rows of R195 (acceptance, step 2 of the decode procedure R90, the first transition) and `exec...` the whole command. -/

namespace Sys2Proof.Machine

/-- CMPB accepted: `if MLEN != 64: raise InvalidLength`, else to LOAD of the one block; H is kept (R152, R195). -/
def beginCmpb (len : Len) (s : State) : StepResult :=
  whenReady s fun s =>
    if len = 64#64 then .next (enterLoad .first 0 1 (accept 0x02#8 len s))
    else .next (raise .invalidLength (accept 0x02#8 len s))

/-- CMPB: compress one block given as bytes, from the H that is there (R152). -/
def execCmpb (len : Len) (s : State) : StepResult := settled (beginCmpb len s)

/-- CMPW accepted: `if MLEN != 16: raise InvalidLength`, else to LOAD of the one block; H is kept (R153, R195). -/
def beginCmpw (len : Len) (s : State) : StepResult :=
  whenReady s fun s =>
    if len = 16#64 then .next (enterLoad .first 0 1 (accept 0x03#8 len s))
    else .next (raise .invalidLength (accept 0x03#8 len s))

/-- CMPW: compress one block given as words, from the H that is there (R153). -/
def execCmpw (len : Len) (s : State) : StepResult := settled (beginCmpw len s)

end Sys2Proof.Machine
end

