-- ==== Sys2Proof/Config.lean ====
section
/-! DEFINITION. What is fixed for the machine, and the one free value. Every size of the core is fixed by the spec (R6, R7): the
source leaves none to an implementation. -/

namespace Sys2Proof.Config

/-- The messages of HASH and DHASH are shorter than this many bytes: the one bound on operands (R7, R83, D13). -/
def messageBound : Nat := 2 ^ 61

/-- FREE VALUE (log entry 6). What `state_o` shows at the n-th sample taken while BUSY = 1: "not specified ... a model must
give it no value (or any value) then" (R94, R266), "freshly drawn at every observation" (93_implementation_defined.md U2). It
has no body, so nothing can be proved of a value of it. It is one constant for all cores and all runs (DESIGN CHOICE, log
entry 21). -/
opaque busyStateO : Nat → BitVec 256

end Sys2Proof.Config
end

