-- ==== Sys2Proof/Machine/Hasher.lean ====
section
/-! DEFINITION. The Hasher's commands INIT, MIDSTATE, HASH and DHASH (42_hasher.md R180, R191, R188, R189). Of each command,
`begin...` is its IDLE rows of R195 (acceptance, step 2 of the decode procedure R90, the first transition) and `exec...` the
whole command. -/

namespace Sys2Proof.Machine

/-- INIT accepted: `if MLEN != 0: raise InvalidLength`, else `H <- IV` and the command is complete in this one step (R180,
R195). -/
def beginInit (len : Len) (s : State) : StepResult :=
  whenReady s fun s =>
    if len = 0#64 then .next (complete (loadIV (accept 0x01#8 len s)))
    else .next (raise .invalidLength (accept 0x01#8 len s))

/-- INIT: set the State register to the initial constants (R180). -/
def execInit (len : Len) (s : State) : StepResult := settled (beginInit len s)

/-- MIDSTATE accepted: `if MLEN != 16: raise InvalidLength`, else `H <- IV` and to LOAD of the one block (R191, R195). A fault
comes before the `H <- IV` (R233). -/
def beginMidstate (len : Len) (s : State) : StepResult :=
  whenReady s fun s =>
    if len = 16#64 then .next (enterLoad .first 0 1 (loadIV (accept 0x04#8 len s)))
    else .next (raise .invalidLength (accept 0x04#8 len s))

/-- MIDSTATE: the State after the first block of a message given in word form (R191). -/
def execMidstate (len : Len) (s : State) : StepResult := settled (beginMidstate len s)

/-- HASH accepted: `H <- IV`, `NBLK <- nblocks(MLEN)`, to LOAD of block 0 (R188, R195). LEN >= 2^61 has no meaning: "refuse"
(R83, 93_implementation_defined.md U1; log entry 7). -/
def beginHash (len : Len) (s : State) : StepResult :=
  whenReady s fun s =>
    if len.toNat < Config.messageBound then
      .next (enterLoad .first 0 (nblocks len.toNat) (loadIV (accept 0x05#8 len s)))
    else .refused (.messageTooLong len)

/-- HASH: hash a message of LEN bytes (R188). -/
def execHash (len : Len) (s : State) : StepResult := settled (beginHash len s)

/-- DHASH accepted: as HASH (R189, R195). -/
def beginDhash (len : Len) (s : State) : StepResult :=
  whenReady s fun s =>
    if len.toNat < Config.messageBound then
      .next (enterLoad .first 0 (nblocks len.toNat) (loadIV (accept 0x06#8 len s)))
    else .refused (.messageTooLong len)

/-- DHASH: hash the hash of a message of LEN bytes (R189). -/
def execDhash (len : Len) (s : State) : StepResult := settled (beginDhash len s)

end Sys2Proof.Machine
end

