-- ==== Sys2Proof/Machine/Dispatch.lean ====
section
/-! DEFINITION. exec: one arm per command (42_hasher.md R200: running the command from acceptance to completion). -/

namespace Sys2Proof.Machine

def exec (i : Instr) (s : State) : Host.Outcome State Fault Refusal :=
  match i with
  | .init len => Sys2Proof.Machine.execInit len s
  | .cmpb len => Sys2Proof.Machine.execCmpb len s
  | .cmpw len => Sys2Proof.Machine.execCmpw len s
  | .midstate len => Sys2Proof.Machine.execMidstate len s
  | .hash len => Sys2Proof.Machine.execHash len s
  | .dhash len => Sys2Proof.Machine.execDhash len s

end Sys2Proof.Machine
end

