-- ==== Sys2Proof/Machine/Fetch.lean ====
section
/-! DEFINITION. The command channel's transfer and step 1 of the decode procedure (30_encoding.md R81, R90). The core fetches no
instructions (R33): a command word comes from the host's command channel. -/

namespace Sys2Proof.Machine

/-- What a rising edge takes from the command channel. -/
inductive Fetched where
  /-- No transfer: `cmd_valid` or `cmd_ready` is 0 (R81). -/
  | nothing
  /-- A defined opcode; the state once the word is taken from the channel. -/
  | command (i : Instr) (s : State)
  /-- A reserved opcode (R85); the state once the word is taken from the channel. -/
  | reserved (op : Opcode) (len : Len) (s : State)
  deriving DecidableEq, Repr

/-- A transfer happens when the channel's `valid` and `ready` are both 1 (R81); the word is decoded at once (R90 step 1). -/
def fetch (s : State) : Fetched :=
  match s.cmdReady, s.cmdQ with
  | true, cw :: rest =>
    match decode cw with
    | .ok i => .command i { s with cmdQ := rest }
    | .error (.reservedOpcode op) => .reserved op (lenField cw) { s with cmdQ := rest }
  | true, [] => .nothing
  | false, _ => .nothing

/-- A reserved opcode raises IllegalCommand whatever its LEN: nothing changes but STATUS, PHASE and the latches of the accepted
word (R85, R232, R234; log entry 15). -/
def illegalCommand (op : Opcode) (len : Len) (s : State) : State := raise .illegalCommand (accept op len s)

/-- The instruction of the opcode table's word w at the head of the command channel, in front of what the host has presented. A
number that is no command word leaves the channel as it is. -/
def presentTableWord (s : State) (nbits w : Nat) : State :=
  match tableWord nbits w with
  | some cw => { s with cmdQ := cw :: s.cmdQ }
  | none => s

end Sys2Proof.Machine
end

