-- ==== Sys2Proof/Machine/Step.lean ====
section
/-! DEFINITION. One step of the machine at the level of the spec, the command (00_scope.md R9): a reset edge, a whole accepted
command, the taking of IllegalCommand, or the continuation of a command that waited for its payload. -/

namespace Sys2Proof.Machine

/-- One step. With `rst` = 1 the core takes the reset state and no transfer happens (R260). Otherwise it accepts the command
word presented when `cmd_ready` is 1 and runs it (R81, R90), or goes on with the command in progress until that completes or
waits (R195); an idle or halted core does nothing (R236, R242). -/
def step (s : State) : Host.Outcome State Fault Refusal :=
  if s.rst then .next (resetEdge s)
  else
    match fetch s with
    | .command i s' => exec i s'
    | .reserved op len s' => .next (illegalCommand op len s')
    | .nothing => .next (settle s)

/-- The instruction of the opcode table's word w placed where step takes its next instruction: at the head of the command
channel (log entry 19). -/
def State.withFetchWord (s : State) (nbits w : Nat) : State := presentTableWord s nbits w

end Sys2Proof.Machine
end

