-- ==== Sys2Proof/Machine/Instances.lean ====
section
/-! DEFINITION. Several instances of the core: "A model of n instances is the product of n models of one" (60_exceptions.md
R243). They share nothing mutable (20_memory.md R68). -/

namespace Sys2Proof.Machine

/-- n cores, each with its own whole state (R243). They share the constant `Config.busyStateO`, so what two busy cores show on
`state_o` is not independent (DESIGN CHOICE, log entry 21). -/
abbrev Cores (n : Nat) := Vector State n

/-- One step of core k among n: only its own state changes. -/
def stepCore {n : Nat} (k : Fin n) (cs : Cores n) : Host.Outcome (Cores n) Fault Refusal :=
  match step cs[k] with
  | .next s => .next (cs.set k s)
  | .fault f => .fault f
  | .refused r => .refused r

end Sys2Proof.Machine
end

