-- ==== Sys2Proof/Machine/Ports.lean ====
section
/-! DEFINITION. The ports of the core as views of the state, and what the host can do to it (30_encoding.md R80, R93 to R96,
20_memory.md R58, 60_exceptions.md R244). -/

namespace Sys2Proof.Machine

/-- H on 256 wires, word 0 in the most significant position (R58). -/
def hashBits (S : HashState) : BitVec 256 := S[0] ++ S[1] ++ S[2] ++ S[3] ++ S[4] ++ S[5] ++ S[6] ++ S[7]

/-- `state_o`: H whenever BUSY = 0, including when FAULT = 1; a free value while BUSY = 1 (R94, U2; log entry 6). DESIGN CHOICE
(log entry 21, unsafe): the free value is selected by `obs` alone, so two busy cores, or two runs, at equal `obs` show the same
value, where the spec lets each observation of each core draw its own. -/
def State.stateO (s : State) : BitVec 256 := if s.status.busy then Config.busyStateO s.obs else hashBits s.h

/-- The byte view of `state_o`: `DIG[i] = state_o[255-8i : 248-8i]` (R58). -/
def State.dig (s : State) (i : Fin 32) : Byte := s.stateO.extractLsb' (248 - 8 * i.val) 8

/-- The word view of `state_o`: `H[j] = state_o[255-32j : 224-32j]` (R58). -/
def State.wordO (s : State) (j : Fin 8) : Word := s.stateO.extractLsb' (224 - 32 * j.val) 32

/-- `status_o` equals STATUS at all times (R93). -/
def State.statusO (s : State) : BitVec 8 := s.status.bits

/-- `cmd_valid`: the host presents a command word (R80). -/
def State.cmdValid (s : State) : Bool := !s.cmdQ.isEmpty

/-- `cmd_op`, CW[71:64] of the word presented, if one is (R80). -/
def State.cmdOp (s : State) : Option Opcode := s.cmdQ.head?.map opField

/-- `cmd_len`, CW[63:0] of the word presented, if one is (R80). -/
def State.cmdLen (s : State) : Option Len := s.cmdQ.head?.map lenField

/-- `pl_valid`: the host presents a payload unit (R80). -/
def State.plValid (s : State) : Bool := !s.plQ.isEmpty

/-- `pl_data`, the unit presented, if one is (R54, R80). -/
def State.plData (s : State) : Option Word := s.plQ.head?

/-- What the host can do, complete (R244), with the withdrawal of what it presented and the core has not taken, which R87, R269
and program P6 speak of. -/
inductive HostAction where
  /-- Present a command word; it is accepted only when `cmd_ready` = 1. -/
  | presentCommand (cw : CommandWord)
  /-- Present a payload unit; it is taken only when `pl_ready` = 1. -/
  | presentUnit (u : Word)
  /-- Withdraw the command words not accepted: beside a reset (95_test_vectors.md P6). -/
  | withdrawCommands
  /-- Withdraw the payload units not taken: after a fault (R87, R269) or beside a reset (P6). -/
  | withdrawUnits
  /-- Drive `rst` (R260). -/
  | driveRst (level : Bool)
  /-- Sample `status_o`: no effect. -/
  | sampleStatus
  /-- Sample `state_o`: no effect on the core; a sample while BUSY = 1 draws a fresh free value (U2). -/
  | sampleState
  deriving DecidableEq, Repr

/-- Whether the host meets its duty with an action (R81, R245 (1), R267: once raised, `valid` must not fall until the transfer). The
spec provides for a withdrawal of units once a command has faulted (R87, R269), and of units and command words beside a reset (P6),
read as: while `rst` = 1, when no transfer happens (R260) (DEDUCED, log entry 22). Every other action is allowed at any time
(R244). -/
def HostAction.permitted : HostAction → State → Bool
  | .presentCommand _, _ => true
  | .presentUnit _, _ => true
  | .withdrawCommands, s => s.rst
  | .withdrawUnits, s => s.rst || s.status.fault
  | .driveRst _, _ => true
  | .sampleStatus, _ => true
  | .sampleState, _ => true

/-- The state after an action that meets the duty: only the host's side of the ports, and the model's sample counter, change. -/
def HostAction.effect : HostAction → State → State
  | .presentCommand cw, s => { s with cmdQ := s.cmdQ ++ [cw] }
  | .presentUnit u, s => { s with plQ := s.plQ ++ [u] }
  | .withdrawCommands, s => { s with cmdQ := [] }
  | .withdrawUnits, s => { s with plQ := [] }
  | .driveRst level, s => { s with rst := level }
  | .sampleStatus, s => s
  | .sampleState, s => if s.status.busy then { s with obs := s.obs + 1 } else s

/-- A host action. It lands between two steps, or between two ticks. One that breaks the handshake has no transition: "refuse"
(U5). -/
def HostAction.apply (a : HostAction) (s : State) : StepResult :=
  if a.permitted s then .next (a.effect s) else .refused .handshakeBroken

end Sys2Proof.Machine
end

