-- ==== Sys2Proof/Machine/Tick.lean ====
section
/-! DEFINITION. The same machine one micro-step at a time (00_scope.md R9: "so that the block can be modelled at either level").
One tick is one row of the sequencer's table (42_hasher.md R195), and `rst` is seen between any two of them. -/

namespace Sys2Proof.Machine

/-- The IDLE rows of R195 for an accepted command: the transition it makes at the edge where it is accepted. -/
def start (i : Instr) (s : State) : StepResult :=
  match i with
  | .init len => beginInit len s
  | .cmpb len => beginCmpb len s
  | .cmpw len => beginCmpw len s
  | .midstate len => beginMidstate len s
  | .hash len => beginHash len s
  | .dhash len => beginDhash len s

/-- One micro-step: reset (R260, R262), acceptance of a command (R81, R195 IDLE rows) or one row of the sequencer. -/
def tick (s : State) : StepResult :=
  if s.rst then .next (resetEdge s)
  else
    match fetch s with
    | .command i s' => start i s'
    | .reserved op len s' => .next (illegalCommand op len s')
    | .nothing => .next (microStep s)

/-- n ticks, stopping at a refusal. -/
def ticks : Nat → State → StepResult
  | 0, s => .next s
  | n + 1, s =>
    match tick s with
    | .next s' => ticks n s'
    | .fault f => .fault f
    | .refused r => .refused r

end Sys2Proof.Machine
end

