-- ==== Sys2Proof/WellFormed.lean ====
section
/-! DEFINITION. A command is well formed when its LEN is in the legal set of its opcode (30_encoding.md R83). An ill-formed one
still has an encoding: it raises InvalidLength (R231) or, for HASH and DHASH, lies outside the spec's domain
(93_implementation_defined.md U1). -/

namespace Sys2Proof

/-- The legal values of LEN, row by row of R83. -/
def Instr.wellFormed : Instr → Bool
  | .init l => l.toNat == 0
  | .cmpb l => l.toNat == 64
  | .cmpw l => l.toNat == 16
  | .midstate l => l.toNat == 16
  | .hash l => decide (l.toNat < Config.messageBound)
  | .dhash l => decide (l.toNat < Config.messageBound)

end Sys2Proof
end

