-- ==== Sys2Proof/Safety.lean ====
section
/-! DEFINITION. What the spec promises of every reachable state (10_state.md R30 to R33, 42_hasher.md R197, 41_compressor.md
R149), and what counts as a faulted state (60_exceptions.md R236). -/

namespace Sys2Proof.Machine

/-- The latched command word is one that loads blocks: a defined opcode other than INIT, with a legal LEN (R83). -/
def blockCommand (op : Opcode) (len : Len) : Prop :=
  (op = 0x02#8 ∧ len.toNat = 64) ∨ (op = 0x03#8 ∧ len.toNat = 16) ∨ (op = 0x04#8 ∧ len.toNat = 16) ∨
    ((op = 0x05#8 ∨ op = 0x06#8) ∧ len.toNat < Config.messageBound)

/-- Whether the opcode hashes a whole message (HASH, DHASH), so that the core pads it. -/
def hashCommand (op : Opcode) : Bool := op == 0x05#8 || op == 0x06#8

/-- NBLK by command and pass (R30, R195): nblocks(MLEN) in pass 0 of HASH and DHASH, 1 otherwise. -/
def passBlocks (s : State) : Nat :=
  match s.pass with
  | .first => if hashCommand s.opr then nblocks s.mlen.toNat else 1
  | .second => 1

/-- RCNT by position (R197): the units of the elements written so far in CMPB, CMPW and MIDSTATE, the message bytes among them
in HASH and DHASH, all of the message in pass 1. -/
def unitsTaken (s : State) : Nat :=
  match s.pass with
  | .first => if hashCommand s.opr then min s.mlen.toNat (64 * s.bidx + s.lcnt) else s.lcnt
  | .second => s.mlen.toNat

/-- The counters of a command in progress are as R30 and R197 say. -/
structure CountersOk (s : State) : Prop where
  command : blockCommand s.opr s.mlen
  blocks : s.nblk = passBlocks s
  index : s.bidx < s.nblk
  second : s.pass = .second → s.opr = 0x06#8
  elements : s.lcnt ≤ blockElements s.opr
  full : s.phase ≠ .load → s.lcnt = blockElements s.opr
  units : s.rcnt = unitsTaken s

/-- THE INVARIANT of the flags and counters: BUSY says that a command is in progress, FAULT that the core is halted (R33), CAUSE
is 0 if and only if FAULT is 0 (R32), and the counters of a command in progress are as R197 says. -/
structure Inv (s : State) : Prop where
  busy : s.status.busy = s.running
  fault : s.status.fault = (s.phase == .halt)
  cause : s.status.cause = .noFault ↔ s.status.fault = false
  counters : s.running = true → CountersOk s

/-- The working registers r after the first n rounds of the schedule W (R145, R146). -/
def roundsUpTo (W : Schedule) (r : Work) (n : Nat) : Work :=
  ((List.finRange 64).take n).foldl (fun r i => roundStep r K[i] W[i]) r

/-- THE INVARIANT of a compression in progress: W is the schedule of the block in the buffer, and the working registers are
those of the rounds done so far, from the H that the compression started with (R143, R144, R146, R149). -/
structure ComputeInv (s : State) : Prop where
  rounds : s.phase = .round → s.w = schedule s.blkw ∧ s.work = roundsUpTo s.w (workOf s.h) s.t.val
  add : s.phase = .add → s.w = schedule s.blkw ∧ s.work = Machine.rounds s.w (workOf s.h)

/-- The equations of one round (R145), register by register: from the old values r, with the round's K and W words, to the new
values r'. All right-hand sides are old values (R147). -/
structure RoundEquations (k w : Word) (r r' : Work) : Prop where
  a : r'.a = (r.h + bsig1 r.e + ch r.e r.f r.g + k + w) + (bsig0 r.a + maj r.a r.b r.c)
  b : r'.b = r.a
  c : r'.c = r.b
  d : r'.d = r.c
  e : r'.e = r.d + (r.h + bsig1 r.e + ch r.e r.f r.g + k + w)
  f : r'.f = r.e
  g : r'.g = r.f
  h : r'.h = r.g

/-- The primes up to n, in ascending order (R25, R26). -/
def primesTo (n : Nat) : List Nat :=
  (List.range (n + 1)).filter fun p => decide (2 ≤ p) && (List.range p).all fun d => decide (d < 2) || p % d != 0

/-- A faulted state: "never a final state of a correct run" (R236). -/
def State.faulted (s : State) : Bool := s.status.fault

/-- The message that the first n byte units on the payload channel carry (R53, R54). -/
def State.payloadBytes (s : State) (n : Nat) : List Byte := (s.plQ.take n).map unitByte

/-- The 64 bytes that the next byte units on the payload channel carry (R152). -/
def State.payloadByteBlock (s : State) : BlockBytes := Vector.ofFn fun i => unitByte (s.plQ.getD i.val 0)

/-- The 16 words that the next word units on the payload channel are, as they arrive (R56, R153). -/
def State.payloadWordBlock (s : State) : Block := Vector.ofFn fun j => s.plQ.getD j.val 0

/-- A byte presented as a payload unit (R54; the core ignores the upper bits, here zero). -/
def byteUnit (b : Byte) : Word := b.setWidth 32

/-- The host presents more payload units behind those it has presented (R244). -/
def State.feed (s : State) (us : List Word) : State := { s with plQ := s.plQ ++ us }

/-- What holds of the state t in which a fault-free command with opcode op and LEN = len has completed, started in s, beside
the value of H: STATUS is what it was (R200), PHASE is IDLE (R198), exactly LEN payload units are consumed in order (R55), and
the rest of the host's side of the ports is untouched (R246). That the latches OPR, MLEN and RCNT still hold the command is the
model's choice (DESIGN CHOICE, log entry 11): R29 gives them the command for its duration only, and U3 any value between commands.
The transients a..h, W, BLKB, LCNT, T, PASS, BIDX and NBLK may hold anything (R23, R156). -/
structure Completed (op : Opcode) (len : Len) (s t : State) : Prop where
  status : t.status = s.status
  phase : t.phase = .idle
  opr : t.opr = op
  mlen : t.mlen = len
  rcnt : t.rcnt = len.toNat
  plQ : t.plQ = s.plQ.drop len.toNat
  cmdQ : t.cmdQ = s.cmdQ
  rst : t.rst = s.rst
  obs : t.obs = s.obs

end Sys2Proof.Machine
end

