-- ==== Sys2Proof/Certificates/Slice0/Obligations.lean ====
section
/-! DEFINITION. The statements for the provers. Each is a property of the machine; nothing is proved here. Where a statement
names a transient after a command, it says only what 42_hasher.md R197 says of it. -/

open Sys2Proof Sys2Proof.Machine

/-! ## The command word -/

/-- R82, R84, R85, R90: every command word is its two fields, opcodes 0x01 to 0x06 decode to their commands with LEN as it
stands, and every other opcode is rejected as reserved. -/
def Obligations.EveryCommandWordIsClassified : Prop :=
  ∀ cw : CommandWord,
    cw = opField cw ++ lenField cw ∧
    ((opField cw).toNat = 1 → decode cw = .ok (.init (lenField cw))) ∧
    ((opField cw).toNat = 2 → decode cw = .ok (.cmpb (lenField cw))) ∧
    ((opField cw).toNat = 3 → decode cw = .ok (.cmpw (lenField cw))) ∧
    ((opField cw).toNat = 4 → decode cw = .ok (.midstate (lenField cw))) ∧
    ((opField cw).toNat = 5 → decode cw = .ok (.hash (lenField cw))) ∧
    ((opField cw).toNat = 6 → decode cw = .ok (.dhash (lenField cw))) ∧
    ((opField cw).toNat = 0 ∨ 7 ≤ (opField cw).toNat →
      decode cw = .error (.reservedOpcode (opField cw)))

/-- R82, R84: decoding and encoding are inverse, both ways: a command word decodes to a command exactly when it is that
command's encoding, so no bit of a command word is dropped and every command has one word. -/
def Obligations.DecodeAndEncodeAreInverse : Prop :=
  ∀ (cw : CommandWord) (i : Instr), decode cw = .ok i ↔ cw = encode i

/-- The encodings of the programs P1 to P8 in 95_test_vectors.md section 9, all that are written out there, decode to the commands
shown with them; the two reserved words of P7 decode to none. -/
def Obligations.EncodingsOfTheProgramsDecode : Prop :=
  decodeTableWord 72 0x010000000000000000 = some (.init 0) ∧
  decodeTableWord 72 0x020000000000000040 = some (.cmpb 64) ∧
  decodeTableWord 72 0x030000000000000010 = some (.cmpw 16) ∧
  decodeTableWord 72 0x040000000000000010 = some (.midstate 16) ∧
  decodeTableWord 72 0x050000000000000003 = some (.hash 3) ∧
  decodeTableWord 72 0x060000000000000050 = some (.dhash 80) ∧
  decodeTableWord 72 0x050000000000000040 = some (.hash 64) ∧
  decodeTableWord 72 0x050000000000000020 = some (.hash 32) ∧
  decodeTableWord 72 0x060000000000000003 = some (.dhash 3) ∧
  decodeTableWord 72 0x02000000000000003f = some (.cmpb 63) ∧
  decodeTableWord 72 0x050000000000000000 = some (.hash 0) ∧
  decodeTableWord 72 0x060000000000000000 = some (.dhash 0) ∧
  decodeTableWord 72 0x000000000000000000 = none ∧
  decodeTableWord 72 0x070000000000000040 = none

/-! ## One step -/

/-- R81, R90, R95: when `cmd_ready` is 1 and the word on the command channel decodes to a command, the step takes the word and is
exec of that command; when no word can be taken, the step goes on with the command in progress. -/
def Obligations.StepRunsTheAcceptedCommand : Prop :=
  (∀ (s : State) (cw : CommandWord) (rest : List CommandWord) (i : Instr),
    s.cmdReady = true → s.cmdQ = cw :: rest → decode cw = .ok i →
      step s = exec i { s with cmdQ := rest }) ∧
  (∀ s : State, s.rst = false → s.cmdReady = false ∨ s.cmdQ = [] → step s = .next (settle s))

/-- R85, R232, R234, R235: a reserved opcode, whatever its LEN, takes IllegalCommand in one step; H, the payload channel and every
transient but the latches of the accepted word (R81, log entry 15) are unchanged. -/
def Obligations.ReservedOpcodeTakesIllegalCommand : Prop :=
  ∀ (s : State) (cw : CommandWord) (rest : List CommandWord),
    s.cmdReady = true → s.cmdQ = cw :: rest →
    ((opField cw).toNat = 0 ∨ 7 ≤ (opField cw).toNat) →
      step s = .next { s with
        cmdQ := rest
        opr := opField cw
        mlen := lenField cw
        rcnt := 0
        status := ⟨false, true, .illegalCommand⟩
        phase := .halt }

/-- R236, R242: a halted core accepts no command, takes no payload unit and does not change; an idle core with no command
presented does nothing; at either level of the model. -/
def Obligations.HaltedAndIdleCoresStay : Prop :=
  (∀ s : State, Inv s → s.rst = false → s.status.fault = true →
    s.cmdReady = false ∧ s.plReady = false ∧ step s = .next s ∧ tick s = .next s) ∧
  (∀ s : State, s.rst = false → s.phase = .idle → s.cmdQ = [] → step s = .next s ∧ tick s = .next s)

/-- R260, R261, R262, R237: with `rst` = 1 the core takes the reset state whatever state it was in, and no transfer happens; STATUS,
H, PHASE and the output ports are as R261 lists them, and what the host has presented stays with the host. -/
def Obligations.ResetTakesTheResetState : Prop :=
  ∀ s : State, s.rst = true →
    s.cmdReady = false ∧ s.plReady = false ∧ tick s = step s ∧
    ∃ t, step s = .next t ∧
      t.h = #v[0x6a09e667, 0xbb67ae85, 0x3c6ef372, 0xa54ff53a, 0x510e527f, 0x9b05688c, 0x1f83d9ab, 0x5be0cd19] ∧
      t.statusO = 0x00#8 ∧ t.phase = .idle ∧
      t.stateO = 0x6a09e667bb67ae853c6ef372a54ff53a510e527f9b05688c1f83d9ab5be0cd19#256 ∧
      ({ t with rst := false } : State).cmdReady = true ∧ ({ t with rst := false } : State).plReady = false ∧
      t.rst = s.rst ∧ t.cmdQ = s.cmdQ ∧ t.plQ = s.plQ

/-! ## The six commands: what each does when it completes, and its frame -/

/-- R180: INIT with LEN = 0 completes: H is IV, no payload is consumed, the latches hold the command, PHASE is IDLE and
nothing else changes. What it says of the transients, that the latches OPR, MLEN, RCNT hold the command and the others (a..h, W,
BLKB, PASS, BIDX, NBLK, T, LCNT) keep their values, is the model's choice (DESIGN CHOICE, log entry 11): the spec gives them any
value between commands (93_implementation_defined.md U3). -/
def Obligations.InitLoadsTheInitialConstants : Prop :=
  ∀ s : State, s.cmdReady = true →
    exec (.init 0#64) s = .next { s with h := IV, opr := 0x01#8, mlen := 0#64, rcnt := 0, phase := .idle }

/-- R152: CMPB with LEN = 64 and its 64 units presented completes: H is the compression of the H that was there with the block
packed from the 64 bytes. That OPR, MLEN and RCNT still hold the command then is the model's choice
(DESIGN CHOICE, log entry 11): the spec gives them any value between commands (93_implementation_defined.md U3). -/
def Obligations.CmpbCompressesTheByteBlock : Prop :=
  ∀ s : State, s.cmdReady = true → 64 ≤ s.plQ.length →
    ∃ t, exec (.cmpb 64#64) s = .next t ∧ t.h = compress s.h (pack s.payloadByteBlock) ∧
      Completed 0x02#8 64#64 s t

/-- R153: CMPW with LEN = 16 and its 16 units presented completes: H is the compression of the H that was there with the 16 words
as they arrived. That OPR, MLEN and RCNT still hold the command then is the model's choice
(DESIGN CHOICE, log entry 11): the spec gives them any value between commands (93_implementation_defined.md U3). -/
def Obligations.CmpwCompressesTheWordBlock : Prop :=
  ∀ s : State, s.cmdReady = true → 16 ≤ s.plQ.length →
    ∃ t, exec (.cmpw 16#64) s = .next t ∧ t.h = compress s.h s.payloadWordBlock ∧
      Completed 0x03#8 16#64 s t

/-- R191: MIDSTATE with LEN = 16 and its 16 units presented completes: H is the compression of IV with the 16 words, whatever H
was. That OPR, MLEN and RCNT still hold the command then is the model's choice
(DESIGN CHOICE, log entry 11): the spec gives them any value between commands (93_implementation_defined.md U3). -/
def Obligations.MidstateCompressesFromIV : Prop :=
  ∀ s : State, s.cmdReady = true → 16 ≤ s.plQ.length →
    ∃ t, exec (.midstate 16#64) s = .next t ∧ t.h = compress IV s.payloadWordBlock ∧
      Completed 0x04#8 16#64 s t

/-- R188, R185: HASH with LEN < 2^61 and its LEN units presented completes: H is the chain over all blocks of the padded message,
from IV, for a message of any such length, and DIG is its sha256. That OPR, MLEN and RCNT still hold the command then is the model's
choice (DESIGN CHOICE, log entry 11): the spec gives them any value between commands (93_implementation_defined.md U3). -/
def Obligations.HashChainsThePaddedMessage : Prop :=
  ∀ (s : State) (len : Len), s.cmdReady = true → len.toNat < 2 ^ 61 → len.toNat ≤ s.plQ.length →
    ∃ t, exec (.hash len) s = .next t ∧ t.h = chain (s.payloadBytes len.toNat) ∧
      (List.finRange 32).map t.dig = sha256 (s.payloadBytes len.toNat) ∧ Completed 0x05#8 len s t

/-- R189: DHASH with LEN < 2^61 and its LEN units presented completes: H is the chain over the digest of the message's chain.
That OPR, MLEN and RCNT still hold the command then is the model's choice
(DESIGN CHOICE, log entry 11): the spec gives them any value between commands (93_implementation_defined.md U3). -/
def Obligations.DhashChainsTheDigest : Prop :=
  ∀ (s : State) (len : Len), s.cmdReady = true → len.toNat < 2 ^ 61 → len.toNat ≤ s.plQ.length →
    ∃ t, exec (.dhash len) s = .next t ∧ t.h = chain (ser (chain (s.payloadBytes len.toNat))) ∧
      (List.finRange 32).map t.dig = sha256 (sha256 (s.payloadBytes len.toNat)) ∧ Completed 0x06#8 len s t

/-! ## Where a command faults, is refused, or waits -/

/-- R231, R233, R234, R235: INIT, CMPB, CMPW and MIDSTATE with an illegal LEN take InvalidLength in one step, before any payload
unit is consumed or H is written (MIDSTATE's `H <- IV` included); all but STATUS, PHASE and the latches of the accepted word (R81,
log entry 15) is unchanged. -/
def Obligations.IllegalLengthTakesInvalidLength : Prop :=
  ∀ (s : State) (i : Instr), s.cmdReady = true →
    (match i with
      | .init len => len.toNat ≠ 0
      | .cmpb len => len.toNat ≠ 64
      | .cmpw len => len.toNat ≠ 16
      | .midstate len => len.toNat ≠ 16
      | .hash _ => False
      | .dhash _ => False) →
    exec i s = .next { s with
      opr := i.opcode
      mlen := i.len
      rcnt := 0
      status := ⟨false, true, .invalidLength⟩
      phase := .halt }

/-- R231: InvalidLength is raised by CMPB with LEN other than 64, CMPW and MIDSTATE with LEN other than 16 and INIT with LEN other
than 0, by HASH and DHASH never, and by nothing else; no command raises IllegalCommand (R232). -/
def Obligations.InvalidLengthIsRaisedExactlyByIllegalLengths : Prop :=
  ∀ (s : State) (i : Instr), Inv s → s.cmdReady = true →
    ((∃ t, exec i s = .next t ∧ t.status.cause = .invalidLength) ↔
      match i with
      | .init len => len.toNat ≠ 0
      | .cmpb len => len.toNat ≠ 64
      | .cmpw len => len.toNat ≠ 16
      | .midstate len => len.toNat ≠ 16
      | .hash _ => False
      | .dhash _ => False) ∧
    ∀ t, exec i s = .next t → t.status.cause ≠ .illegalCommand

/-- R235, with R233, R234: a step that faults keeps H, which `state_o` then shows, and leaves the payload channel untouched. -/
def Obligations.AFaultKeepsHAndThePayload : Prop :=
  ∀ s t : State, Inv s → s.status.fault = false → step s = .next t → t.status.fault = true →
    t.h = s.h ∧ t.stateO = hashBits s.h ∧ t.plQ = s.plQ ∧
    t.phase = .halt ∧ t.status.busy = false ∧ t.status.cause ≠ .noFault

/-- 93_implementation_defined.md U1 and U11: HASH and DHASH with LEN >= 2^61 are refused, neither faulting nor computing, and so is
a command handed to exec while `cmd_ready` is 0 (log entry 9); these are the only refusals. That no command ends in an outcome `fault` is
the model's convention (DEDUCED, log entry 10): both faults of R230 are next states, and the type Fault is empty. -/
def Obligations.RefusalsAreExactlyTheOutOfDomainCommands : Prop :=
  ∀ (s : State) (i : Instr),
    ((∃ r, exec i s = .refused r) ↔
      s.cmdReady = false ∨
      match i with
      | .init _ => False
      | .cmpb _ => False
      | .cmpw _ => False
      | .midstate _ => False
      | .hash len => 2 ^ 61 ≤ len.toNat
      | .dhash len => 2 ^ 61 ≤ len.toNat) ∧
    (∀ f, exec i s ≠ .fault f) ∧
    (s.cmdReady = false → exec i s = .refused .notAccepted)

/-- R55, R247, U7: a command with a legal LEN and fewer units presented than LEN takes all of them and waits in LOAD: BUSY stays 1,
no further command is accepted, and stepping on without more payload changes nothing. -/
def Obligations.ShortPayloadWaitsInLoad : Prop :=
  ∀ (s : State) (i : Instr), s.cmdReady = true → i.wellFormed = true → s.plQ.length < i.len.toNat →
    ∃ t, exec i s = .next t ∧ t.phase = .load ∧ t.status.busy = true ∧ t.status.fault = false ∧
      t.plQ = [] ∧ t.rcnt = s.plQ.length ∧ t.plReady = true ∧ t.cmdReady = false ∧
      t.cmdQ = s.cmdQ ∧ t.rst = s.rst ∧ t.obs = s.obs ∧ step t = .next t

/-- R55, R61, R67, R275: when the host presents the payload does not matter: a command that waited and goes on with more units ends
as it does with all of them presented at once.
The two states are equal in their transients too, which after completion is the model's choice (DESIGN CHOICE, log entry 11). -/
def Obligations.PayloadArrivalTimeIsInvisible : Prop :=
  ∀ (s : State) (us : List Word), settle ((settle s).feed us) = settle (s.feed us)

/-- R53, R55, R87: every command leaves the command channel, `rst` and the sample counter alone and takes payload units from the
front of the channel only, in order and at most LEN of them: exactly LEN when it completes, none when it faults. RCNT
counts them. While the command is in progress that is R55 and R197; that RCNT still says so after completion is the model's choice
(DESIGN CHOICE, log entry 11: U3 gives it any value then), and after a fault its reading of R81 (DEDUCED, log entry 15). -/
def Obligations.CommandsTakeTheirPayloadFromTheFront : Prop :=
  ∀ (s t : State) (i : Instr), exec i s = .next t →
    t.cmdQ = s.cmdQ ∧ t.rst = s.rst ∧ t.obs = s.obs ∧
    ∃ n, n ≤ i.len.toNat ∧ n ≤ s.plQ.length ∧ t.plQ = s.plQ.drop n ∧ t.rcnt = n ∧
      (t.phase = .idle → n = i.len.toNat) ∧ (t.phase = .halt → n = 0)

/-! ## The two levels of the model, and termination -/

/-- R9, R195, R200: a step is a run of micro-steps: for every state with `rst` = 0 some number of ticks reaches the same outcome. The
two outcomes are equal in their transients too, which after completion is the model's choice (DESIGN CHOICE, log entry 11). -/
def Obligations.StepIsARunOfTicks : Prop :=
  ∀ s : State, s.rst = false → ∃ n, ticks n s = step s

/-- R198, R247, R277: a step ends with the core idle or halted, or waiting in LOAD for a payload unit that the host has not
presented; there is no other way to stop. -/
def Obligations.StepEndsIdleHaltedOrWaiting : Prop :=
  ∀ s t : State, step s = .next t →
    t.phase = .idle ∨ t.phase = .halt ∨ (t.phase = .load ∧ needsPayload t = true ∧ t.plQ = [])

/-! ## Invariants -/

/-- The reset state meets the invariants of the flags, the counters and the compression in progress (R32, R33, R197, R261). -/
def Obligations.InvariantsHoldAtReset : Prop := Inv State.reset ∧ ComputeInv State.reset

/-- R32, R33, R197: every micro-step keeps the invariant of the flags and counters. -/
def Obligations.EveryTickKeepsTheInvariant : Prop :=
  ∀ s t : State, Inv s → tick s = .next t → Inv t

/-- R32, R33, R197: every step keeps the invariant of the flags and counters. -/
def Obligations.EveryStepKeepsTheInvariant : Prop :=
  ∀ s t : State, Inv s → step s = .next t → Inv t

/-- R143, R144, R146, R149: every micro-step keeps the invariant of a compression in progress. -/
def Obligations.EveryTickKeepsTheCompression : Prop :=
  ∀ s t : State, ComputeInv s → tick s = .next t → ComputeInv t

/-- R244, R62: no host action changes the core: H, STATUS and every transient stay, and both invariants with them. What the host
may do at any time it may do in every state, presenting puts the word or unit behind those presented, and driving `rst` sets it. -/
def Obligations.HostActionsLeaveTheCoreAlone : Prop :=
  (∀ (a : HostAction) (s t : State), a.apply s = .next t →
    { t with rst := s.rst, cmdQ := s.cmdQ, plQ := s.plQ, obs := s.obs } = s ∧
    (Inv s → Inv t) ∧ (ComputeInv s → ComputeInv t) ∧
    (s.status.busy = false → t.stateO = s.stateO)) ∧
  (∀ (s : State) (cw : CommandWord),
    (HostAction.presentCommand cw).apply s = .next { s with cmdQ := s.cmdQ ++ [cw] }) ∧
  (∀ (s : State) (u : Word), (HostAction.presentUnit u).apply s = .next { s with plQ := s.plQ ++ [u] }) ∧
  (∀ (s : State) (level : Bool), (HostAction.driveRst level).apply s = .next { s with rst := level }) ∧
  (∀ s : State, HostAction.sampleStatus.apply s = .next s) ∧
  (∀ s : State, ∃ t, HostAction.sampleState.apply s = .next t ∧ { t with obs := s.obs } = s)

/-- R81, R245 (1), R267, U5: a host that lets `valid` fall before the transfer is refused: from a state with `rst` = 0 no action
removes or changes a presented command word, and none a presented payload unit unless a command has faulted. Units left over after a
fault can be withdrawn (R87, R269), and so can units and command words while `rst` = 1 (program P6; that the reset's own cycles are
meant is the model's reading, DEDUCED, log entry 22). -/
def Obligations.PresentedWordsAndUnitsStayUntilTheTransfer : Prop :=
  (∀ (a : HostAction) (s t : State), s.rst = false → a.apply s = .next t →
    s.cmdQ <+: t.cmdQ ∧ (s.status.fault = false → s.plQ <+: t.plQ)) ∧
  (∀ s : State, s.rst = false → HostAction.withdrawCommands.apply s = .refused .handshakeBroken) ∧
  (∀ s : State, s.rst = false → s.status.fault = false →
    HostAction.withdrawUnits.apply s = .refused .handshakeBroken) ∧
  (∀ s : State, s.rst = true ∨ s.status.fault = true →
    HostAction.withdrawUnits.apply s = .next { s with plQ := [] }) ∧
  (∀ s : State, s.rst = true → HostAction.withdrawCommands.apply s = .next { s with cmdQ := [] })

/-- R22: H is written in exactly three ways. Where a micro-step changes H, either all of H becomes IV, by reset, by an accepted
INIT, MIDSTATE, HASH or DHASH, or at the start of pass 1 of DHASH, or all of H is replaced by the add-back. -/
def Obligations.HIsWrittenInThreeWays : Prop :=
  ∀ s t : State, tick s = .next t → t.h ≠ s.h →
    (s.rst = true ∧ t.h = IV) ∨
    (∃ i s', fetch s = .command i s' ∧ t.h = IV ∧
      (i.opcode.toNat = 1 ∨ i.opcode.toNat = 4 ∨ i.opcode.toNat = 5 ∨ i.opcode.toNat = 6)) ∨
    (s.phase = .load ∧ s.pass = .second ∧ t.phase = .sched ∧ t.h = IV) ∨
    (s.phase = .add ∧ t.h = addBack s.h s.work)

/-- R149, R150: the add-back of a compression in progress leaves the compression of the H it started with and the block in the
buffer; no other micro-step of a compression writes H. -/
def Obligations.AddBackYieldsTheCompression : Prop :=
  ∀ s t : State, ComputeInv s → s.rst = false → s.status.busy = true → tick s = .next t →
    (s.phase = .add → t.h = compress s.h s.blkw) ∧
    (s.phase = .sched ∨ s.phase = .round → t.h = s.h)

/-! ## Ports and STATUS -/

/-- R31, R93: STATUS bit by bit: BUSY, FAULT, CAUSE (0 = no fault, 1 = InvalidLength, 2 = IllegalCommand, 3 never), bits 7:4
zero. A state in which the core is halted shows 0x06 after InvalidLength and 0x0a after IllegalCommand. -/
def Obligations.StatusBitsAreAsSpecified : Prop :=
  ∀ s : State,
    s.statusO.getLsbD 0 = s.status.busy ∧ s.statusO.getLsbD 1 = s.status.fault ∧
    (s.status.cause = .noFault → s.statusO.extractLsb' 2 2 = 0#2) ∧
    (s.status.cause = .invalidLength → s.statusO.extractLsb' 2 2 = 1#2) ∧
    (s.status.cause = .illegalCommand → s.statusO.extractLsb' 2 2 = 2#2) ∧
    s.statusO.extractLsb' 2 2 ≠ 3#2 ∧
    s.statusO.extractLsb' 4 4 = 0#4 ∧
    (Inv s → (s.statusO.extractLsb' 2 2 = 0#2 ↔ s.statusO.getLsbD 1 = false)) ∧
    (Inv s → s.phase = .halt → s.status.cause = .invalidLength → s.statusO = 0x06#8) ∧
    (Inv s → s.phase = .halt → s.status.cause = .illegalCommand → s.statusO = 0x0a#8)

/-- R95, R96: `cmd_ready` is 1 exactly when PHASE = IDLE with `rst` = 0, and `pl_ready` exactly when PHASE = LOAD and the next
element is to come from the payload, which implies RCNT < MLEN. -/
def Obligations.ReadySignalsFollowThePhase : Prop :=
  ∀ s : State, Inv s →
    (s.cmdReady = true ↔ s.rst = false ∧ s.phase = .idle) ∧
    (s.cmdReady = true ↔ s.rst = false ∧ s.status.busy = false ∧ s.status.fault = false) ∧
    (s.plReady = true ↔ s.rst = false ∧ s.phase = .load ∧ s.lcnt < blockElements s.opr ∧
      elementSource s = .payload) ∧
    (s.plReady = true → s.rcnt < s.mlen.toNat)

/-- R58, R94, R186: while BUSY = 0 the word view of `state_o` is H, its byte view is `DIG[4j+k] = H[j][31-8k : 24-8k]`, and the 32
bytes of DIG are `ser(H)`. -/
def Obligations.OutputPortShowsHInBothViews : Prop :=
  ∀ s : State, s.status.busy = false →
    (∀ j : Fin 8, s.wordO j = s.h[j]) ∧
    (∀ (j : Fin 8) (k : Fin 4) (i : Fin 32), i.val = 4 * j.val + k.val →
      s.dig i = s.h[j].extractLsb' (24 - 8 * k.val) 8) ∧
    (List.finRange 32).map s.dig = ser s.h

/-! ## Functions -/

/-- R110, R113, R114, R115: addition mod 2^32, rotation bit by bit, logical shift as division, complement. -/
def Obligations.WordArithmeticMeansWhatTheSpecSays : Prop :=
  ∀ x y : Word,
    (add32 x y).toNat = (x.toNat + y.toNat) % 2 ^ 32 ∧
    (∀ n : Nat, 1 ≤ n → n ≤ 31 → rotr x n = (x >>> n ||| x <<< (32 - n))) ∧
    (∀ n i : Nat, 1 ≤ n → n ≤ 31 → i < 32 → (rotr x n).getLsbD i = x.getLsbD ((i + n) % 32)) ∧
    (∀ n : Nat, (shr x n).toNat = x.toNat / 2 ^ n) ∧
    (~~~x).toNat = 0xffffffff - x.toNat

/-- R116, R117, R118, R119: the four sigma functions bit by bit, as exclusive ors of the rotations and shifts the spec names. -/
def Obligations.SigmaFunctionsBitByBit : Prop :=
  ∀ (x : Word) (i : Nat), i < 32 →
    (ssig0 x).getLsbD i =
      ((x.getLsbD ((i + 7) % 32) ^^ x.getLsbD ((i + 18) % 32)) ^^ (decide (i + 3 < 32) && x.getLsbD (i + 3))) ∧
    (ssig1 x).getLsbD i =
      ((x.getLsbD ((i + 17) % 32) ^^ x.getLsbD ((i + 19) % 32)) ^^ (decide (i + 10 < 32) && x.getLsbD (i + 10))) ∧
    (bsig0 x).getLsbD i =
      ((x.getLsbD ((i + 2) % 32) ^^ x.getLsbD ((i + 13) % 32)) ^^ x.getLsbD ((i + 22) % 32)) ∧
    (bsig1 x).getLsbD i =
      ((x.getLsbD ((i + 6) % 32) ^^ x.getLsbD ((i + 11) % 32)) ^^ x.getLsbD ((i + 25) % 32))

/-- R120, R121: Ch takes y where x is 1 and z where x is 0; each bit of Maj is the value that at least two of x, y, z have. -/
def Obligations.ChoiceAndMajorityBitByBit : Prop :=
  ∀ (x y z : Word) (i : Nat), i < 32 →
    (ch x y z).getLsbD i = (if x.getLsbD i then y.getLsbD i else z.getLsbD i) ∧
    ((maj x y z).getLsbD i = true ↔
      2 ≤ (x.getLsbD i).toNat + (y.getLsbD i).toNat + (z.getLsbD i).toNat)

/-- R122, R123: be32 is the big-endian value of four bytes, unbe32 its inverse both ways, and be64 the eight bytes of a number below
2^64, most significant first. -/
def Obligations.EndianConversionsAreInverse : Prop :=
  (∀ b0 b1 b2 b3 : Byte,
    (be32 b0 b1 b2 b3).toNat = b0.toNat * 2 ^ 24 + b1.toNat * 2 ^ 16 + b2.toNat * 2 ^ 8 + b3.toNat ∧
    unbe32 (be32 b0 b1 b2 b3) = [b0, b1, b2, b3]) ∧
  (∀ w : Word,
    unbe32 w = [w.extractLsb' 24 8, w.extractLsb' 16 8, w.extractLsb' 8 8, w.extractLsb' 0 8] ∧
    be32 (w.extractLsb' 24 8) (w.extractLsb' 16 8) (w.extractLsb' 8 8) (w.extractLsb' 0 8) = w) ∧
  (∀ n : Nat, n < 2 ^ 64 → (be64 n).length = 8 ∧ (be64 n).foldl (fun v b => v * 256 + b.toNat) 0 = n)

/-- R50, R51: the byte and word views of the block buffer are the same 512 bits, and a write changes the bytes it names and no
other. -/
def Obligations.BlockBufferViewsAgree : Prop :=
  (∀ (b : BlockBytes) (j : Fin 16),
    memRead4 b j = be32 b[4 * j.val] b[4 * j.val + 1] b[4 * j.val + 2] b[4 * j.val + 3]) ∧
  (∀ (b : BlockBytes) (j : Fin 16) (k : Fin 4) (i : Fin 64), i.val = 4 * j.val + k.val →
    memRead1 b i = (memRead4 b j).extractLsb' (24 - 8 * k.val) 8) ∧
  (∀ b : BlockBytes, unpack (pack b) = b) ∧ (∀ B : Block, pack (unpack B) = B) ∧
  (∀ (b : BlockBytes) (i j : Fin 64) (v : Byte),
    memRead1 (memWrite1 b i.val v) j = if i = j then v else memRead1 b j) ∧
  (∀ (b : BlockBytes) (i j : Fin 16) (v : Word),
    memRead4 (memWrite4 b i.val v) j = if i = j then v else memRead4 b j)

/-- R141, R142, R143: the schedule of a block is its 16 words followed by 48 words of the recurrence, and the schedule of the
all-zero block is zero. -/
def Obligations.ScheduleSatisfiesTheRecurrence : Prop :=
  (∀ (B : Block) (i : Fin 16), (schedule B)[i.val] = B[i]) ∧
  (∀ (B : Block) (k : Fin 48),
    (schedule B)[k.val + 16] =
      (schedule B)[k.val] + (schedule B)[k.val + 9] + ssig0 (schedule B)[k.val + 1] +
        ssig1 (schedule B)[k.val + 14]) ∧
  (∀ i : Fin 64, (schedule (Vector.replicate 16 0))[i] = 0)

/-- R181, R183: the padded message of a message shorter than 2^61 bytes has 64N bytes, and its byte k is the message's, 0x80, 0x00
or a byte of the big-endian bit length by the four cases of R183. -/
def Obligations.PaddedMessageByteByByte : Prop :=
  ∀ (M : List Byte) (k : Nat), M.length < 2 ^ 61 → k < 64 * nblocks M.length →
    (pad M).length = 64 * nblocks M.length ∧
    (pad M)[k]? = some (paddedByte M k) ∧
    (∀ h : k < M.length, paddedByte M k = M[k]) ∧
    (k = M.length → paddedByte M k = 0x80#8) ∧
    (M.length < k → k < 64 * nblocks M.length - 8 → paddedByte M k = 0x00#8) ∧
    (∀ j, j < 8 → k = 64 * nblocks M.length - 8 + j →
      paddedByte M k = (BitVec.ofNat 64 (8 * M.length)).extractLsb' (56 - 8 * j) 8)

/-- R182: nblocks(L) is at least 1 and 64 nblocks(L) is the smallest multiple of 64 that is at least L + 9; the source's table of
cases. -/
def Obligations.BlockCountIsTheSmallest : Prop :=
  (∀ L : Nat, 1 ≤ nblocks L ∧ L + 9 ≤ 64 * nblocks L ∧ (∀ n, L + 9 ≤ 64 * n → nblocks L ≤ n) ∧
    nblocks L = (L + 8) / 64 + 1) ∧
  nblocks 0 = 1 ∧ nblocks 55 = 1 ∧ nblocks 56 = 2 ∧ nblocks 64 = 2 ∧ nblocks 32 = 1 ∧ nblocks 80 = 2 ∧
  nblocks 119 = 2 ∧ nblocks 120 = 3

/-- R190: the second-pass block in word form: the eight words of the State, 0x80000000, six zero words, 0x00000100; in byte form it
is the padded serialized State. -/
def Obligations.SecondPassBlockInWords : Prop :=
  ∀ S : HashState,
    (∀ j : Fin 8, (pack (block2 S))[j.val] = S[j]) ∧
    (pack (block2 S))[8] = 0x80000000#32 ∧
    (∀ j : Fin 16, 9 ≤ j.val → j.val ≤ 14 → (pack (block2 S))[j] = 0x00000000#32) ∧
    (pack (block2 S))[15] = 0x00000100#32 ∧
    (block2 S).toList = pad (ser S)

/-! ## Equivalences of commands -/

/-- R154: representation invariance: CMPB with a block's bytes and CMPW with its words, from the same H, leave the same H, the
compression of that H with the block. Bits 31:8 of a byte unit do not matter (R54). -/
def Obligations.CmpbAndCmpwAgree : Prop :=
  ∀ (s s' : State) (Y : BlockBytes) (us : List Word) (rest rest' : List Word),
    s.cmdReady = true → s'.cmdReady = true → s.h = s'.h →
    us.map unitByte = Y.toList → s.plQ = us ++ rest → s'.plQ = (pack Y).toList ++ rest' →
    ∃ t t', exec (.cmpb 64#64) s = .next t ∧ exec (.cmpw 16#64) s' = .next t' ∧
      t.h = t'.h ∧ t.h = compress s.h (pack Y) ∧ t.plQ = rest ∧ t'.plQ = rest'

/-- R92, first row: MIDSTATE B is INIT then CMPW B. -/
def Obligations.MidstateIsInitThenCmpw : Prop :=
  ∀ s : State, s.cmdReady = true → 16 ≤ s.plQ.length →
    ∃ t t1 t2, exec (.midstate 16#64) s = .next t ∧ exec (.init 0#64) s = .next t1 ∧
      exec (.cmpw 16#64) t1 = .next t2 ∧ t.h = t2.h ∧ t.status = t2.status ∧ t.plQ = t2.plQ

/-- R92, second row: HASH M is INIT then CMPB of each block of the padded message: running those command words with the padded
message's bytes as payload, and HASH with the message's bytes as payload, both complete, with the same H, chain(M), the same STATUS
and the same units left. -/
def Obligations.HashIsInitThenCmpbPerBlock : Prop :=
  ∀ (s : State) (M : List Byte) (us : List Word), Inv s → s.cmdReady = true → M.length < 2 ^ 61 →
    s.cmdQ = encode (.init 0) :: List.replicate (nblocks M.length) (encode (.cmpb 64)) →
    s.plQ = (pad M).map byteUnit ++ us →
    ∃ t t', Host.Core.run Sys2Proof.core (nblocks M.length + 1) s = .next t ∧
      exec (.hash (BitVec.ofNat 64 M.length)) { s with plQ := M.map byteUnit ++ us } = .next t' ∧
      t.h = t'.h ∧ t.h = chain M ∧ t.status = t'.status ∧ t.status = s.status ∧ t.phase = t'.phase ∧
      t.cmdQ = [] ∧ t.plQ = us ∧ t'.plQ = us

/-- R92, third row: DHASH M is HASH M, reading DIG, and HASH of the 32 bytes read. -/
def Obligations.DhashIsHashOfTheDigestRead : Prop :=
  ∀ (s : State) (len : Len), s.cmdReady = true → len.toNat < 2 ^ 61 → len.toNat ≤ s.plQ.length →
    ∃ t t1 t2, exec (.dhash len) s = .next t ∧ exec (.hash len) s = .next t1 ∧
      exec (.hash 32#64) { t1 with plQ := (List.finRange 32).map (fun i => byteUnit (t1.dig i)) ++ t1.plQ } =
        .next t2 ∧
      t.h = t2.h ∧ t.status = t2.status ∧ t.plQ = t2.plQ

/-- R8, R35, R193, R202: a command's outcome depends on the command word, its payload and, for CMPB and CMPW only, on H: two cores
that agree on these and may differ in every transient, in H (for the other four) and in what waits on the command channel end
with the same H, STATUS, PHASE, RCNT and payload channel, also where they end waiting for payload. That RCNT is the same after
completion too, where the spec gives it any value (U3) and it is no result, is the model's choice (DESIGN CHOICE, log entry 11). -/
def Obligations.ResultsDependOnOperandsOnly : Prop :=
  ∀ (s s' : State) (i : Instr), Inv s → Inv s' → s.cmdReady = true → s'.cmdReady = true →
    i.wellFormed = true → s.plQ = s'.plQ →
    (i.opcode.toNat = 2 ∨ i.opcode.toNat = 3 → s.h = s'.h) →
    ∃ t t', exec i s = .next t ∧ exec i s' = .next t' ∧
      t.h = t'.h ∧ t.status = t'.status ∧ t.phase = t'.phase ∧ t.rcnt = t'.rcnt ∧ t.plQ = t'.plQ

/-- R68, R243: several cores share nothing mutable: a step of one leaves every other as it was, and steps of two different cores
commute. -/
def Obligations.CoresAreIndependent : Prop :=
  ∀ (n : Nat) (cs c1 : Cores n) (k j : Fin n), k ≠ j → stepCore k cs = .next c1 →
    c1[j] = cs[j] ∧ step cs[k] = .next c1[k] ∧
    ∀ c2, stepCore j c1 = .next c2 → ∃ c3, stepCore j cs = .next c3 ∧ stepCore k c3 = .next c2

/-! ## The round, the constants and the add-back, spelled out -/

/-- R25, R26: the tables K and IV, in the rows the spec prints, and what the spec says their words are: the first 32 bits of the
fractional parts of the cube roots of the first 64 primes and of the square roots of the first 8 (general knowledge by the spec's
own mark, G1 and G2, log entry 17). -/
def Obligations.ConstantTablesAreAsPrinted : Prop :=
  K[0] ++ K[1] ++ K[2] ++ K[3] ++ K[4] ++ K[5] ++ K[6] ++ K[7] =
    0x428a2f98_71374491_b5c0fbcf_e9b5dba5_3956c25b_59f111f1_923f82a4_ab1c5ed5#256 ∧
  K[8] ++ K[9] ++ K[10] ++ K[11] ++ K[12] ++ K[13] ++ K[14] ++ K[15] =
    0xd807aa98_12835b01_243185be_550c7dc3_72be5d74_80deb1fe_9bdc06a7_c19bf174#256 ∧
  K[16] ++ K[17] ++ K[18] ++ K[19] ++ K[20] ++ K[21] ++ K[22] ++ K[23] =
    0xe49b69c1_efbe4786_0fc19dc6_240ca1cc_2de92c6f_4a7484aa_5cb0a9dc_76f988da#256 ∧
  K[24] ++ K[25] ++ K[26] ++ K[27] ++ K[28] ++ K[29] ++ K[30] ++ K[31] =
    0x983e5152_a831c66d_b00327c8_bf597fc7_c6e00bf3_d5a79147_06ca6351_14292967#256 ∧
  K[32] ++ K[33] ++ K[34] ++ K[35] ++ K[36] ++ K[37] ++ K[38] ++ K[39] =
    0x27b70a85_2e1b2138_4d2c6dfc_53380d13_650a7354_766a0abb_81c2c92e_92722c85#256 ∧
  K[40] ++ K[41] ++ K[42] ++ K[43] ++ K[44] ++ K[45] ++ K[46] ++ K[47] =
    0xa2bfe8a1_a81a664b_c24b8b70_c76c51a3_d192e819_d6990624_f40e3585_106aa070#256 ∧
  K[48] ++ K[49] ++ K[50] ++ K[51] ++ K[52] ++ K[53] ++ K[54] ++ K[55] =
    0x19a4c116_1e376c08_2748774c_34b0bcb5_391c0cb3_4ed8aa4a_5b9cca4f_682e6ff3#256 ∧
  K[56] ++ K[57] ++ K[58] ++ K[59] ++ K[60] ++ K[61] ++ K[62] ++ K[63] =
    0x748f82ee_78a5636f_84c87814_8cc70208_90befffa_a4506ceb_bef9a3f7_c67178f2#256 ∧
  IV[0] ++ IV[1] ++ IV[2] ++ IV[3] ++ IV[4] ++ IV[5] ++ IV[6] ++ IV[7] =
    0x6a09e667_bb67ae85_3c6ef372_a54ff53a_510e527f_9b05688c_1f83d9ab_5be0cd19#256 ∧
  (∀ i : Fin 64, ∃ q : Fin 7,
    (q.val * 2 ^ 32 + K[i].toNat) ^ 3 ≤ (primesTo 311).getD i.val 0 * 2 ^ 96 ∧
    (primesTo 311).getD i.val 0 * 2 ^ 96 < (q.val * 2 ^ 32 + K[i].toNat + 1) ^ 3) ∧
  (∀ j : Fin 8, ∃ q : Fin 5,
    (q.val * 2 ^ 32 + IV[j].toNat) ^ 2 ≤ (primesTo 19).getD j.val 0 * 2 ^ 64 ∧
    (primesTo 19).getD j.val 0 * 2 ^ 64 < (q.val * 2 ^ 32 + IV[j].toNat + 1) ^ 2)

/-- R145, R146, R147: compress(S, B) is, word by word, S plus the working registers after 64 rounds from S (R144, R148), the
registers of round i + 1 following from those of round i by the equations of R145 with K[i] and the block's W[i], the same index for
both, no round skipped or repeated. -/
def Obligations.CompressIsSixtyFourRoundsAndAddBack : Prop :=
  ∀ (S : HashState) (B : Block), ∃ r : Nat → Work,
    (r 0).a = S[0] ∧ (r 0).b = S[1] ∧ (r 0).c = S[2] ∧ (r 0).d = S[3] ∧
    (r 0).e = S[4] ∧ (r 0).f = S[5] ∧ (r 0).g = S[6] ∧ (r 0).h = S[7] ∧
    (∀ i : Fin 64, RoundEquations K[i] (schedule B)[i] (r i.val) (r (i.val + 1))) ∧
    (compress S B)[0] = S[0] + (r 64).a ∧ (compress S B)[1] = S[1] + (r 64).b ∧
    (compress S B)[2] = S[2] + (r 64).c ∧ (compress S B)[3] = S[3] + (r 64).d ∧
    (compress S B)[4] = S[4] + (r 64).e ∧ (compress S B)[5] = S[5] + (r 64).f ∧
    (compress S B)[6] = S[6] + (r 64).g ∧ (compress S B)[7] = S[7] + (r 64).h

/-- The SCHED, ROUND and ADD rows of R195, spelled out, with a command in progress: SCHED fills W from the block, copies H into a..h
and starts at round 0 (R144); ROUND is the equations of R145 with K[T] and W[T], then the next round, or ADD after round 63; ADD
adds each register into its word of H (R148). -/
def Obligations.MicroStepsFollowTheRoundEquations : Prop :=
  ∀ s : State, s.rst = false → s.status.busy = true →
    (s.phase = .sched → ∃ t, tick s = .next t ∧
      t.phase = .round ∧ t.t.val = 0 ∧ t.w = schedule s.blkw ∧ t.h = s.h ∧
      t.work.a = s.h[0] ∧ t.work.b = s.h[1] ∧ t.work.c = s.h[2] ∧ t.work.d = s.h[3] ∧
      t.work.e = s.h[4] ∧ t.work.f = s.h[5] ∧ t.work.g = s.h[6] ∧ t.work.h = s.h[7]) ∧
    (s.phase = .round → ∃ t, tick s = .next t ∧
      RoundEquations K[s.t] s.w[s.t] s.work t.work ∧ t.w = s.w ∧ t.h = s.h ∧
      (s.t.val < 63 → t.phase = .round ∧ t.t.val = s.t.val + 1) ∧ (s.t.val = 63 → t.phase = .add)) ∧
    (s.phase = .add → ∃ t, tick s = .next t ∧
      t.h[0] = s.h[0] + s.work.a ∧ t.h[1] = s.h[1] + s.work.b ∧ t.h[2] = s.h[2] + s.work.c ∧
      t.h[3] = s.h[3] + s.work.d ∧ t.h[4] = s.h[4] + s.work.e ∧ t.h[5] = s.h[5] + s.work.f ∧
      t.h[6] = s.h[6] + s.work.g ∧ t.h[7] = s.h[7] + s.work.h)
end

