-- ==== Sys2Proof/Laws/State.lean ====
section
/-! SUPPORT. What each named update of the state does to each field, one lemma a field, so that no later proof unfolds a record
update. -/

namespace Sys2Proof.Machine

variable (st : Status)

@[simp] theorem Status.accepted_busy : st.accepted.busy = true := rfl
@[simp] theorem Status.accepted_fault : st.accepted.fault = st.fault := rfl
@[simp] theorem Status.accepted_cause : st.accepted.cause = st.cause := rfl
@[simp] theorem Status.completed_busy : st.completed.busy = false := rfl
@[simp] theorem Status.completed_fault : st.completed.fault = st.fault := rfl
@[simp] theorem Status.completed_cause : st.completed.cause = st.cause := rfl
@[simp] theorem Status.faulted_busy (c : Cause) : (st.faulted c).busy = false := rfl
@[simp] theorem Status.faulted_fault (c : Cause) : (st.faulted c).fault = true := rfl
@[simp] theorem Status.faulted_cause (c : Cause) : (st.faulted c).cause = c := rfl

/-- Acceptance and completion together leave a STATUS with BUSY = 0 as it was (R200). -/
@[simp] theorem Status.completed_accepted (hb : st.busy = false) : st.accepted.completed = st := by
  cases st; simp_all [Status.accepted, Status.completed]

/-! Acceptance (R81) writes OPR, MLEN, RCNT and BUSY. -/

@[simp] theorem accept_h (op : Opcode) (len : Len) (s : State) : (accept op len s).h = s.h := rfl
@[simp] theorem accept_status (op : Opcode) (len : Len) (s : State) : (accept op len s).status = s.status.accepted := rfl
@[simp] theorem accept_phase (op : Opcode) (len : Len) (s : State) : (accept op len s).phase = s.phase := rfl
@[simp] theorem accept_pass (op : Opcode) (len : Len) (s : State) : (accept op len s).pass = s.pass := rfl
@[simp] theorem accept_bidx (op : Opcode) (len : Len) (s : State) : (accept op len s).bidx = s.bidx := rfl
@[simp] theorem accept_nblk (op : Opcode) (len : Len) (s : State) : (accept op len s).nblk = s.nblk := rfl
@[simp] theorem accept_t (op : Opcode) (len : Len) (s : State) : (accept op len s).t = s.t := rfl
@[simp] theorem accept_rcnt (op : Opcode) (len : Len) (s : State) : (accept op len s).rcnt = 0 := rfl
@[simp] theorem accept_lcnt (op : Opcode) (len : Len) (s : State) : (accept op len s).lcnt = s.lcnt := rfl
@[simp] theorem accept_opr (op : Opcode) (len : Len) (s : State) : (accept op len s).opr = op := rfl
@[simp] theorem accept_mlen (op : Opcode) (len : Len) (s : State) : (accept op len s).mlen = len := rfl
@[simp] theorem accept_work (op : Opcode) (len : Len) (s : State) : (accept op len s).work = s.work := rfl
@[simp] theorem accept_w (op : Opcode) (len : Len) (s : State) : (accept op len s).w = s.w := rfl
@[simp] theorem accept_blkb (op : Opcode) (len : Len) (s : State) : (accept op len s).blkb = s.blkb := rfl
@[simp] theorem accept_rst (op : Opcode) (len : Len) (s : State) : (accept op len s).rst = s.rst := rfl
@[simp] theorem accept_cmdQ (op : Opcode) (len : Len) (s : State) : (accept op len s).cmdQ = s.cmdQ := rfl
@[simp] theorem accept_plQ (op : Opcode) (len : Len) (s : State) : (accept op len s).plQ = s.plQ := rfl
@[simp] theorem accept_obs (op : Opcode) (len : Len) (s : State) : (accept op len s).obs = s.obs := rfl

/-! Fault entry (R234) writes STATUS and PHASE. -/

@[simp] theorem raise_h (c : Cause) (s : State) : (raise c s).h = s.h := rfl
@[simp] theorem raise_status (c : Cause) (s : State) : (raise c s).status = s.status.faulted c := rfl
@[simp] theorem raise_phase (c : Cause) (s : State) : (raise c s).phase = .halt := rfl
@[simp] theorem raise_pass (c : Cause) (s : State) : (raise c s).pass = s.pass := rfl
@[simp] theorem raise_bidx (c : Cause) (s : State) : (raise c s).bidx = s.bidx := rfl
@[simp] theorem raise_nblk (c : Cause) (s : State) : (raise c s).nblk = s.nblk := rfl
@[simp] theorem raise_t (c : Cause) (s : State) : (raise c s).t = s.t := rfl
@[simp] theorem raise_rcnt (c : Cause) (s : State) : (raise c s).rcnt = s.rcnt := rfl
@[simp] theorem raise_lcnt (c : Cause) (s : State) : (raise c s).lcnt = s.lcnt := rfl
@[simp] theorem raise_opr (c : Cause) (s : State) : (raise c s).opr = s.opr := rfl
@[simp] theorem raise_mlen (c : Cause) (s : State) : (raise c s).mlen = s.mlen := rfl
@[simp] theorem raise_work (c : Cause) (s : State) : (raise c s).work = s.work := rfl
@[simp] theorem raise_w (c : Cause) (s : State) : (raise c s).w = s.w := rfl
@[simp] theorem raise_blkb (c : Cause) (s : State) : (raise c s).blkb = s.blkb := rfl
@[simp] theorem raise_rst (c : Cause) (s : State) : (raise c s).rst = s.rst := rfl
@[simp] theorem raise_cmdQ (c : Cause) (s : State) : (raise c s).cmdQ = s.cmdQ := rfl
@[simp] theorem raise_plQ (c : Cause) (s : State) : (raise c s).plQ = s.plQ := rfl
@[simp] theorem raise_obs (c : Cause) (s : State) : (raise c s).obs = s.obs := rfl

/-! Loading IV writes H alone (R22 case 1). -/

@[simp] theorem loadIV_h (s : State) : (loadIV s).h = IV := rfl
@[simp] theorem loadIV_status (s : State) : (loadIV s).status = s.status := rfl
@[simp] theorem loadIV_phase (s : State) : (loadIV s).phase = s.phase := rfl
@[simp] theorem loadIV_pass (s : State) : (loadIV s).pass = s.pass := rfl
@[simp] theorem loadIV_bidx (s : State) : (loadIV s).bidx = s.bidx := rfl
@[simp] theorem loadIV_nblk (s : State) : (loadIV s).nblk = s.nblk := rfl
@[simp] theorem loadIV_t (s : State) : (loadIV s).t = s.t := rfl
@[simp] theorem loadIV_rcnt (s : State) : (loadIV s).rcnt = s.rcnt := rfl
@[simp] theorem loadIV_lcnt (s : State) : (loadIV s).lcnt = s.lcnt := rfl
@[simp] theorem loadIV_opr (s : State) : (loadIV s).opr = s.opr := rfl
@[simp] theorem loadIV_mlen (s : State) : (loadIV s).mlen = s.mlen := rfl
@[simp] theorem loadIV_work (s : State) : (loadIV s).work = s.work := rfl
@[simp] theorem loadIV_w (s : State) : (loadIV s).w = s.w := rfl
@[simp] theorem loadIV_blkb (s : State) : (loadIV s).blkb = s.blkb := rfl
@[simp] theorem loadIV_rst (s : State) : (loadIV s).rst = s.rst := rfl
@[simp] theorem loadIV_cmdQ (s : State) : (loadIV s).cmdQ = s.cmdQ := rfl
@[simp] theorem loadIV_plQ (s : State) : (loadIV s).plQ = s.plQ := rfl
@[simp] theorem loadIV_obs (s : State) : (loadIV s).obs = s.obs := rfl

/-! The add-back writes H alone (R22 case 2). -/

@[simp] theorem addBackH_h (s : State) : (addBackH s).h = addBack s.h s.work := rfl
@[simp] theorem addBackH_status (s : State) : (addBackH s).status = s.status := rfl
@[simp] theorem addBackH_phase (s : State) : (addBackH s).phase = s.phase := rfl
@[simp] theorem addBackH_pass (s : State) : (addBackH s).pass = s.pass := rfl
@[simp] theorem addBackH_bidx (s : State) : (addBackH s).bidx = s.bidx := rfl
@[simp] theorem addBackH_nblk (s : State) : (addBackH s).nblk = s.nblk := rfl
@[simp] theorem addBackH_t (s : State) : (addBackH s).t = s.t := rfl
@[simp] theorem addBackH_rcnt (s : State) : (addBackH s).rcnt = s.rcnt := rfl
@[simp] theorem addBackH_lcnt (s : State) : (addBackH s).lcnt = s.lcnt := rfl
@[simp] theorem addBackH_opr (s : State) : (addBackH s).opr = s.opr := rfl
@[simp] theorem addBackH_mlen (s : State) : (addBackH s).mlen = s.mlen := rfl
@[simp] theorem addBackH_work (s : State) : (addBackH s).work = s.work := rfl
@[simp] theorem addBackH_w (s : State) : (addBackH s).w = s.w := rfl
@[simp] theorem addBackH_blkb (s : State) : (addBackH s).blkb = s.blkb := rfl
@[simp] theorem addBackH_rst (s : State) : (addBackH s).rst = s.rst := rfl
@[simp] theorem addBackH_cmdQ (s : State) : (addBackH s).cmdQ = s.cmdQ := rfl
@[simp] theorem addBackH_plQ (s : State) : (addBackH s).plQ = s.plQ := rfl
@[simp] theorem addBackH_obs (s : State) : (addBackH s).obs = s.obs := rfl

/-! Completion writes BUSY and PHASE (R198). -/

@[simp] theorem complete_h (s : State) : (complete s).h = s.h := rfl
@[simp] theorem complete_status (s : State) : (complete s).status = s.status.completed := rfl
@[simp] theorem complete_phase (s : State) : (complete s).phase = .idle := rfl
@[simp] theorem complete_pass (s : State) : (complete s).pass = s.pass := rfl
@[simp] theorem complete_bidx (s : State) : (complete s).bidx = s.bidx := rfl
@[simp] theorem complete_nblk (s : State) : (complete s).nblk = s.nblk := rfl
@[simp] theorem complete_t (s : State) : (complete s).t = s.t := rfl
@[simp] theorem complete_rcnt (s : State) : (complete s).rcnt = s.rcnt := rfl
@[simp] theorem complete_lcnt (s : State) : (complete s).lcnt = s.lcnt := rfl
@[simp] theorem complete_opr (s : State) : (complete s).opr = s.opr := rfl
@[simp] theorem complete_mlen (s : State) : (complete s).mlen = s.mlen := rfl
@[simp] theorem complete_work (s : State) : (complete s).work = s.work := rfl
@[simp] theorem complete_w (s : State) : (complete s).w = s.w := rfl
@[simp] theorem complete_blkb (s : State) : (complete s).blkb = s.blkb := rfl
@[simp] theorem complete_rst (s : State) : (complete s).rst = s.rst := rfl
@[simp] theorem complete_cmdQ (s : State) : (complete s).cmdQ = s.cmdQ := rfl
@[simp] theorem complete_plQ (s : State) : (complete s).plQ = s.plQ := rfl
@[simp] theorem complete_obs (s : State) : (complete s).obs = s.obs := rfl

/-! The start of a LOAD phase writes PHASE, PASS, BIDX, NBLK and LCNT (R195). -/

@[simp] theorem enterLoad_h (p : Pass) (n N : Nat) (s : State) : (enterLoad p n N s).h = s.h := rfl
@[simp] theorem enterLoad_status (p : Pass) (n N : Nat) (s : State) : (enterLoad p n N s).status = s.status := rfl
@[simp] theorem enterLoad_phase (p : Pass) (n N : Nat) (s : State) : (enterLoad p n N s).phase = .load := rfl
@[simp] theorem enterLoad_pass (p : Pass) (n N : Nat) (s : State) : (enterLoad p n N s).pass = p := rfl
@[simp] theorem enterLoad_bidx (p : Pass) (n N : Nat) (s : State) : (enterLoad p n N s).bidx = n := rfl
@[simp] theorem enterLoad_nblk (p : Pass) (n N : Nat) (s : State) : (enterLoad p n N s).nblk = N := rfl
@[simp] theorem enterLoad_t (p : Pass) (n N : Nat) (s : State) : (enterLoad p n N s).t = s.t := rfl
@[simp] theorem enterLoad_rcnt (p : Pass) (n N : Nat) (s : State) : (enterLoad p n N s).rcnt = s.rcnt := rfl
@[simp] theorem enterLoad_lcnt (p : Pass) (n N : Nat) (s : State) : (enterLoad p n N s).lcnt = 0 := rfl
@[simp] theorem enterLoad_opr (p : Pass) (n N : Nat) (s : State) : (enterLoad p n N s).opr = s.opr := rfl
@[simp] theorem enterLoad_mlen (p : Pass) (n N : Nat) (s : State) : (enterLoad p n N s).mlen = s.mlen := rfl
@[simp] theorem enterLoad_work (p : Pass) (n N : Nat) (s : State) : (enterLoad p n N s).work = s.work := rfl
@[simp] theorem enterLoad_w (p : Pass) (n N : Nat) (s : State) : (enterLoad p n N s).w = s.w := rfl
@[simp] theorem enterLoad_blkb (p : Pass) (n N : Nat) (s : State) : (enterLoad p n N s).blkb = s.blkb := rfl
@[simp] theorem enterLoad_rst (p : Pass) (n N : Nat) (s : State) : (enterLoad p n N s).rst = s.rst := rfl
@[simp] theorem enterLoad_cmdQ (p : Pass) (n N : Nat) (s : State) : (enterLoad p n N s).cmdQ = s.cmdQ := rfl
@[simp] theorem enterLoad_plQ (p : Pass) (n N : Nat) (s : State) : (enterLoad p n N s).plQ = s.plQ := rfl
@[simp] theorem enterLoad_obs (p : Pass) (n N : Nat) (s : State) : (enterLoad p n N s).obs = s.obs := rfl

/-! Reset keeps what stands on the host's side of the ports (R261). -/

@[simp] theorem resetEdge_h (s : State) : (resetEdge s).h = State.reset.h := rfl
@[simp] theorem resetEdge_status (s : State) : (resetEdge s).status = State.reset.status := rfl
@[simp] theorem resetEdge_phase (s : State) : (resetEdge s).phase = State.reset.phase := rfl
@[simp] theorem resetEdge_pass (s : State) : (resetEdge s).pass = State.reset.pass := rfl
@[simp] theorem resetEdge_bidx (s : State) : (resetEdge s).bidx = State.reset.bidx := rfl
@[simp] theorem resetEdge_nblk (s : State) : (resetEdge s).nblk = State.reset.nblk := rfl
@[simp] theorem resetEdge_t (s : State) : (resetEdge s).t = State.reset.t := rfl
@[simp] theorem resetEdge_rcnt (s : State) : (resetEdge s).rcnt = State.reset.rcnt := rfl
@[simp] theorem resetEdge_lcnt (s : State) : (resetEdge s).lcnt = State.reset.lcnt := rfl
@[simp] theorem resetEdge_opr (s : State) : (resetEdge s).opr = State.reset.opr := rfl
@[simp] theorem resetEdge_mlen (s : State) : (resetEdge s).mlen = State.reset.mlen := rfl
@[simp] theorem resetEdge_work (s : State) : (resetEdge s).work = State.reset.work := rfl
@[simp] theorem resetEdge_w (s : State) : (resetEdge s).w = State.reset.w := rfl
@[simp] theorem resetEdge_blkb (s : State) : (resetEdge s).blkb = State.reset.blkb := rfl
@[simp] theorem resetEdge_rst (s : State) : (resetEdge s).rst = s.rst := rfl
@[simp] theorem resetEdge_cmdQ (s : State) : (resetEdge s).cmdQ = s.cmdQ := rfl
@[simp] theorem resetEdge_plQ (s : State) : (resetEdge s).plQ = s.plQ := rfl
@[simp] theorem resetEdge_obs (s : State) : (resetEdge s).obs = s.obs := rfl

/-! The SCHED row writes W, a..h, T and PHASE (R195). -/

@[simp] theorem schedStep_h (s : State) : (schedStep s).h = s.h := rfl
@[simp] theorem schedStep_status (s : State) : (schedStep s).status = s.status := rfl
@[simp] theorem schedStep_phase (s : State) : (schedStep s).phase = .round := rfl
@[simp] theorem schedStep_pass (s : State) : (schedStep s).pass = s.pass := rfl
@[simp] theorem schedStep_bidx (s : State) : (schedStep s).bidx = s.bidx := rfl
@[simp] theorem schedStep_nblk (s : State) : (schedStep s).nblk = s.nblk := rfl
@[simp] theorem schedStep_t (s : State) : (schedStep s).t = 0 := rfl
@[simp] theorem schedStep_rcnt (s : State) : (schedStep s).rcnt = s.rcnt := rfl
@[simp] theorem schedStep_lcnt (s : State) : (schedStep s).lcnt = s.lcnt := rfl
@[simp] theorem schedStep_opr (s : State) : (schedStep s).opr = s.opr := rfl
@[simp] theorem schedStep_mlen (s : State) : (schedStep s).mlen = s.mlen := rfl
@[simp] theorem schedStep_work (s : State) : (schedStep s).work = workOf s.h := rfl
@[simp] theorem schedStep_w (s : State) : (schedStep s).w = schedule s.blkw := rfl
@[simp] theorem schedStep_blkb (s : State) : (schedStep s).blkb = s.blkb := rfl
@[simp] theorem schedStep_rst (s : State) : (schedStep s).rst = s.rst := rfl
@[simp] theorem schedStep_cmdQ (s : State) : (schedStep s).cmdQ = s.cmdQ := rfl
@[simp] theorem schedStep_plQ (s : State) : (schedStep s).plQ = s.plQ := rfl
@[simp] theorem schedStep_obs (s : State) : (schedStep s).obs = s.obs := rfl

end Sys2Proof.Machine
end

