-- ==== Sys2Proof/Laws/Sequencer.lean ====
section
/-! SUPPORT. The sequencer: what a micro-step can do, that each enabled one brings the command exactly one step nearer to its
end, and the run of micro-steps as an equation to rewrite with. -/

namespace Sys2Proof.Machine

theorem blockElements_cases (op : Opcode) : blockElements op = 16 ∨ blockElements op = 64 := by
  unfold blockElements; split <;> simp

theorem blockElements_pos (op : Opcode) : 0 < blockElements op := by
  rcases blockElements_cases op with h | h <;> omega

/-- `PayloadNext()` takes the unit on the ports and counts it, and nothing else (R55). -/
theorem payloadNext_cons (s : State) (u : Word) (rest : List Word) (h : s.plQ = u :: rest) :
    payloadNext s = some (u, { s with plQ := rest, rcnt := s.rcnt + 1 }) := by
  simp [payloadNext, h]

theorem payloadNext_nil (s : State) (h : s.plQ = []) : payloadNext s = none := by
  simp [payloadNext, h]

/-- The payload is needed only in a LOAD step that has an element to write, from the payload channel (R96). -/
theorem needsPayload_iff (s : State) :
    needsPayload s = true ↔
      s.phase = .load ∧ s.lcnt < blockElements s.opr ∧ elementSource s = .payload := by
  simp [needsPayload, and_assoc]

theorem starved_iff (s : State) :
    starved s = true ↔
      s.phase = .load ∧ s.lcnt < blockElements s.opr ∧ elementSource s = .payload ∧ s.plQ = [] := by
  simp [starved, needsPayload, and_assoc]

theorem running_iff (s : State) : s.running = true ↔ s.phase ≠ .idle ∧ s.phase ≠ .halt := by
  cases h : s.phase <;> simp [State.running, h]

theorem enabled_iff (s : State) : s.enabled = true ↔ s.running = true ∧ starved s = false := by
  simp [State.enabled]

/-- A LOAD step that is not starved writes exactly one element: from the core itself, or from the unit on the ports. -/
theorem loadElement_cases (s : State) (hp : s.phase = .load) (hl : s.lcnt < blockElements s.opr)
    (hs : starved s = false) :
    (∃ b, elementSource s = .generated b ∧
      loadElement s = { s with blkb := memWrite1 s.blkb s.lcnt b, lcnt := s.lcnt + 1 }) ∨
    (∃ u rest, elementSource s = .payload ∧ s.plQ = u :: rest ∧
      loadElement s = { s with
        plQ := rest
        rcnt := s.rcnt + 1
        blkb := if wordUnit s.opr then memWrite4 s.blkb s.lcnt u else memWrite1 s.blkb s.lcnt (unitByte u)
        lcnt := s.lcnt + 1 }) := by
  cases hsrc : elementSource s with
  | generated b => exact .inl ⟨b, rfl, by simp [loadElement, hsrc]⟩
  | payload =>
    cases hq : s.plQ with
    | nil =>
      have : starved s = true := (starved_iff s).2 ⟨hp, hl, hsrc, hq⟩
      simp [hs] at this
    | cons u rest => exact .inr ⟨u, rest, rfl, rfl, by simp [loadElement, hsrc, payloadNext_cons s u rest hq]⟩

/-- Whether it is starved or not, a LOAD step keeps the phase, the latches and the block counters. -/
theorem loadElement_frame (s : State) :
    (loadElement s).h = s.h ∧ (loadElement s).status = s.status ∧ (loadElement s).phase = s.phase ∧
    (loadElement s).pass = s.pass ∧ (loadElement s).bidx = s.bidx ∧ (loadElement s).nblk = s.nblk ∧
    (loadElement s).t = s.t ∧ (loadElement s).opr = s.opr ∧ (loadElement s).mlen = s.mlen ∧
    (loadElement s).work = s.work ∧ (loadElement s).w = s.w ∧ (loadElement s).rst = s.rst ∧
    (loadElement s).cmdQ = s.cmdQ ∧ (loadElement s).obs = s.obs := by
  unfold loadElement payloadNext
  cases elementSource s <;> cases s.plQ <;> simp

/-- The two LOAD rows that end the phase (R195). -/
theorem endLoad_eq (s : State) :
    endLoad s = { s with phase := .sched, h := if s.pass = .second then IV else s.h } := by
  cases h : s.pass <;> simp [endLoad, h, loadIV]

/-- The two ROUND rows (R195). -/
theorem roundMicro_lt (s : State) (h : s.t.val < 63) :
    roundMicro s = { s with work := roundStep s.work K[s.t] s.w[s.t], t := s.t + 1 } := by
  simp [roundMicro, h]

theorem roundMicro_last (s : State) (h : ¬ s.t.val < 63) :
    roundMicro s = { s with work := roundStep s.work K[s.t] s.w[s.t], phase := .add } := by
  simp [roundMicro, h]

theorem roundMicro_frame (s : State) :
    (roundMicro s).h = s.h ∧ (roundMicro s).status = s.status ∧ (roundMicro s).pass = s.pass ∧
    (roundMicro s).bidx = s.bidx ∧ (roundMicro s).nblk = s.nblk ∧ (roundMicro s).rcnt = s.rcnt ∧
    (roundMicro s).lcnt = s.lcnt ∧ (roundMicro s).opr = s.opr ∧ (roundMicro s).mlen = s.mlen ∧
    (roundMicro s).w = s.w ∧ (roundMicro s).blkb = s.blkb ∧ (roundMicro s).rst = s.rst ∧
    (roundMicro s).cmdQ = s.cmdQ ∧ (roundMicro s).plQ = s.plQ ∧ (roundMicro s).obs = s.obs := by
  by_cases h : s.t.val < 63
  · simp [roundMicro_lt s h]
  · simp [roundMicro_last s h]

/-- The three ADD rows (R195). -/
theorem addStep_more (s : State) (h : s.bidx + 1 < s.nblk) :
    addStep s = enterLoad s.pass (s.bidx + 1) s.nblk (addBackH s) := by
  simp [addStep, h]

theorem addStep_secondPass (s : State) (h : ¬ s.bidx + 1 < s.nblk) (ho : secondPassDue s = true) :
    addStep s = enterLoad .second 0 1 (addBackH s) := by
  simp [addStep, h, ho]

theorem addStep_last (s : State) (h : ¬ s.bidx + 1 < s.nblk) (ho : secondPassDue s = false) :
    addStep s = complete (addBackH s) := by
  simp [addStep, h, ho]

/-- Which row applies, by PHASE (R195). -/
theorem microStep_load (s : State) (hp : s.phase = .load) (hl : s.lcnt < blockElements s.opr) :
    microStep s = loadElement s := by
  simp [microStep, hp, hl]

theorem microStep_endLoad (s : State) (hp : s.phase = .load) (hl : ¬ s.lcnt < blockElements s.opr) :
    microStep s = endLoad s := by
  simp [microStep, hp, hl]

theorem microStep_sched (s : State) (hp : s.phase = .sched) : microStep s = schedStep s := by
  simp [microStep, hp]

theorem microStep_round (s : State) (hp : s.phase = .round) : microStep s = roundMicro s := by
  simp [microStep, hp]

theorem microStep_add (s : State) (hp : s.phase = .add) : microStep s = addStep s := by
  simp [microStep, hp]

theorem microStep_stopped (s : State) (h : s.running = false) : microStep s = s := by
  cases hp : s.phase <;> simp_all [microStep, State.running]

/-- What follows the add-back depends on the opcode and the block counters alone. -/
theorem microsAfterBlock_congr {s s' : State} (hn : s'.nblk = s.nblk) (hb : s'.bidx = s.bidx) (ho : s'.opr = s.opr)
    (hp : s'.pass = s.pass) : microsAfterBlock s' = microsAfterBlock s := by
  simp [microsAfterBlock, secondPassDue, hn, hb, ho, hp]

theorem microsLeft_load (s : State) (hp : s.phase = .load) :
    microsLeft s = (blockElements s.opr - s.lcnt) + 67 + microsAfterBlock s := by
  simp [microsLeft, hp]

theorem microsLeft_sched (s : State) (hp : s.phase = .sched) : microsLeft s = 66 + microsAfterBlock s := by
  simp [microsLeft, hp]

theorem microsLeft_round (s : State) (hp : s.phase = .round) :
    microsLeft s = (64 - s.t.val) + 1 + microsAfterBlock s := by
  simp [microsLeft, hp]

theorem microsLeft_add (s : State) (hp : s.phase = .add) : microsLeft s = 1 + microsAfterBlock s := by
  simp [microsLeft, hp]

/-- A LOAD step that is not starved advances LCNT. -/
theorem loadElement_lcnt (s : State) (hp : s.phase = .load) (hl : s.lcnt < blockElements s.opr)
    (hs : starved s = false) : (loadElement s).lcnt = s.lcnt + 1 := by
  rcases loadElement_cases s hp hl hs with ⟨b, -, e⟩ | ⟨u, rest, -, -, e⟩ <;> rw [e]

/-- Each enabled micro-step takes the command exactly one micro-step nearer to its end (R277). -/
theorem microsLeft_microStep (s : State) (he : s.enabled = true) :
    microsLeft s = microsLeft (microStep s) + 1 := by
  obtain ⟨hr, hs⟩ := (enabled_iff s).1 he
  cases hp : s.phase with
  | idle => simp [State.running, hp] at hr
  | halt => simp [State.running, hp] at hr
  | load =>
    by_cases hl : s.lcnt < blockElements s.opr
    · obtain ⟨-, -, fp, fpass, fb, fn, -, fo, -⟩ := loadElement_frame s
      rw [microStep_load s hp hl, microsLeft_load s hp, microsLeft_load _ (fp.trans hp), fo,
        loadElement_lcnt s hp hl hs, microsAfterBlock_congr fn fb fo fpass]
      omega
    · rw [microStep_endLoad s hp hl, endLoad_eq, microsLeft_load s hp, microsLeft_sched _ rfl,
        microsAfterBlock_congr (s := s) (s' := { s with phase := .sched, h := _ }) rfl rfl rfl rfl]
      omega
  | sched =>
    rw [microStep_sched s hp, microsLeft_sched s hp, microsLeft_round _ (schedStep_phase s),
      microsAfterBlock_congr (schedStep_nblk s) (schedStep_bidx s) (schedStep_opr s) (schedStep_pass s), schedStep_t]
    simp
    omega
  | round =>
    obtain ⟨-, -, fpass, fb, fn, -, -, fo, -⟩ := roundMicro_frame s
    rw [microStep_round s hp, microsLeft_round s hp, ← microsAfterBlock_congr fn fb fo fpass]
    have := s.t.isLt
    by_cases ht : s.t.val < 63
    · have hp' : (roundMicro s).phase = .round := by rw [roundMicro_lt s ht]; exact hp
      have hv : (roundMicro s).t.val = s.t.val + 1 := by
        rw [roundMicro_lt s ht]; simp [Fin.val_add]; omega
      rw [microsLeft_round _ hp', hv]
      omega
    · have hp' : (roundMicro s).phase = .add := by rw [roundMicro_last s ht]
      rw [microsLeft_add _ hp']
      omega
  | add =>
    rw [microStep_add s hp, microsLeft_add s hp]
    by_cases hb : s.bidx + 1 < s.nblk
    · obtain ⟨k, hk⟩ : ∃ k, s.nblk = s.bidx + 1 + (k + 1) := ⟨s.nblk - (s.bidx + 2), by omega⟩
      have h1 : s.nblk - (s.bidx + 1) = k + 1 := by omega
      have h2 : s.nblk - (s.bidx + 1 + 1) = k := by omega
      have h3 : secondPassDue (enterLoad s.pass (s.bidx + 1) s.nblk (addBackH s)) = secondPassDue s := by
        simp [secondPassDue]
      rw [addStep_more s hb, microsLeft_load _ (enterLoad_phase ..)]
      simp only [microsAfterBlock, enterLoad_lcnt, enterLoad_opr, enterLoad_bidx, enterLoad_nblk, h3,
        addBackH_opr, h1, h2, blockMicros, Nat.add_mul]
      omega
    · have h0 : s.nblk - (s.bidx + 1) = 0 := by omega
      cases ho : secondPassDue s with
      | true =>
        have hn : secondPassDue (enterLoad .second 0 1 (addBackH s)) = false := by simp [secondPassDue]
        rw [addStep_secondPass s hb ho, microsLeft_load _ (enterLoad_phase ..)]
        simp only [microsAfterBlock, enterLoad_lcnt, enterLoad_opr, enterLoad_bidx, enterLoad_nblk, hn, ho,
          addBackH_opr, h0, blockMicros]
        simp
        omega
      | false =>
        rw [addStep_last s hb ho]
        simp [microsLeft, microsAfterBlock, h0, ho]

/-- A command that is not in progress, or waits, is settled. -/
theorem settle_of_not_enabled (s : State) (h : s.enabled = false) : settle s = s := by
  unfold settle
  cases microsLeft s <;> simp [runMicros, h]

theorem settle_not_running (s : State) (h : s.running = false) : settle s = s :=
  settle_of_not_enabled s (by simp [State.enabled, h])

@[simp] theorem settle_complete (s : State) : settle (complete s) = complete s :=
  settle_not_running _ (by simp [State.running])

@[simp] theorem settle_raise (c : Cause) (s : State) : settle (raise c s) = raise c s :=
  settle_not_running _ (by simp [State.running])

/-- The run of a command, one micro-step at a time: the equation to rewrite with. -/
theorem settle_microStep (s : State) (h : s.enabled = true) : settle s = settle (microStep s) := by
  unfold settle
  rw [microsLeft_microStep s h]
  simp [runMicros, h]

/-- What every enabled micro-step keeps, the run of a command keeps. -/
theorem settle_induct {P : State → Prop} (hstep : ∀ s, s.enabled = true → P s → P (microStep s)) (s : State)
    (h : P s) : P (settle s) := by
  generalize hn : microsLeft s = n
  induction n generalizing s with
  | zero =>
    have : s.enabled = false := by
      by_contra hc
      have := microsLeft_microStep s (by simpa using hc)
      omega
    rw [settle_of_not_enabled s this]; exact h
  | succ n ih =>
    by_cases he : s.enabled = true
    · rw [settle_microStep s he]
      exact ih _ (hstep s he h) (by have := microsLeft_microStep s he; omega)
    · rw [settle_of_not_enabled s (by simpa using he)]; exact h

/-- A settled command has completed, faulted, or waits for the host (R198, R247, R277). -/
theorem settle_end (s : State) : (settle s).enabled = false := by
  generalize hn : microsLeft s = n
  induction n generalizing s with
  | zero =>
    have : s.enabled = false := by
      by_contra hc
      have := microsLeft_microStep s (by simpa using hc)
      omega
    rw [settle_of_not_enabled s this]; exact this
  | succ n ih =>
    by_cases he : s.enabled = true
    · rw [settle_microStep s he]
      exact ih _ (by have := microsLeft_microStep s he; omega)
    · rw [settle_of_not_enabled s (by simpa using he)]; simpa using he

/-- No micro-step touches the host's side of the command channel, `rst`, the latches or the fault flags (R32, R244). -/
theorem microStep_frame (s : State) :
    (microStep s).cmdQ = s.cmdQ ∧ (microStep s).rst = s.rst ∧ (microStep s).obs = s.obs ∧
    (microStep s).opr = s.opr ∧ (microStep s).mlen = s.mlen ∧ (microStep s).status.fault = s.status.fault ∧
    (microStep s).status.cause = s.status.cause := by
  cases hp : s.phase with
  | idle => simp [microStep, hp]
  | halt => simp [microStep, hp]
  | load =>
    by_cases hl : s.lcnt < blockElements s.opr
    · rw [microStep_load s hp hl]
      obtain ⟨_, h2, _, _, _, _, _, h8, h9, _, _, h12, h13, h14⟩ := loadElement_frame s
      simp [*]
    · rw [microStep_endLoad s hp hl, endLoad_eq]; simp
  | sched => rw [microStep_sched s hp]; simp
  | round => rw [microStep_round s hp]; have := roundMicro_frame s; simp [this]
  | add =>
    rw [microStep_add s hp]; unfold addStep; split
    · simp
    · split <;> simp

/-- Nor does the run of a command. -/
theorem settle_frame (s : State) :
    (settle s).cmdQ = s.cmdQ ∧ (settle s).rst = s.rst ∧ (settle s).obs = s.obs ∧
    (settle s).opr = s.opr ∧ (settle s).mlen = s.mlen ∧ (settle s).status.fault = s.status.fault ∧
    (settle s).status.cause = s.status.cause := by
  refine settle_induct (P := fun t => t.cmdQ = s.cmdQ ∧ t.rst = s.rst ∧ t.obs = s.obs ∧ t.opr = s.opr ∧
    t.mlen = s.mlen ∧ t.status.fault = s.status.fault ∧ t.status.cause = s.status.cause) ?_ s (by simp)
  intro t _ h
  have := microStep_frame t
  simp [this, h]

end Sys2Proof.Machine
end

