-- ==== Sys2Proof/Laws/Runs.lean ====
section
/-! SUPPORT. What the phases of one block do when they run: the LOAD phase element by element, then SCHED, the 64 rounds and the
add-back as one compression. -/

namespace Sys2Proof.Machine

/-- The source of an element depends on these fields alone (R196). -/
theorem elementSource_congr {s s' : State} (hp : s'.pass = s.pass) (hh : s'.h = s.h) (ho : s'.opr = s.opr)
    (hb : s'.bidx = s.bidx) (hm : s'.mlen = s.mlen) (hl : s'.lcnt = s.lcnt) : elementSource s' = elementSource s := by
  simp [elementSource, hp, hh, ho, hb, hm, hl]

theorem memWrite1_get (b : BlockBytes) (i : Nat) (v : Byte) (j : Nat) (hj : j < 64) :
    (memWrite1 b i v)[j] = if i = j then v else b[j] := by
  simp [memWrite1, Vector.getElem_setIfInBounds]

/-- A word write puts byte k of the word at 4j+k and leaves the other bytes alone (R51). -/
theorem memWrite4_get (b : BlockBytes) (j : Nat) (v : Word) (i : Nat) (hi : i < 64) :
    (memWrite4 b j v)[i] = if i / 4 = j then wordByte v (i % 4) else b[i] := by
  simp only [memWrite4, Vector.getElem_setIfInBounds]
  by_cases h : i / 4 = j
  · have hr : i % 4 = 0 ∨ i % 4 = 1 ∨ i % 4 = 2 ∨ i % 4 = 3 := by omega
    rcases hr with hr | hr | hr | hr
    · rw [if_neg (by omega), if_neg (by omega), if_neg (by omega), if_pos (by omega), if_pos h, hr]
    · rw [if_neg (by omega), if_neg (by omega), if_pos (by omega), if_pos h, hr]
    · rw [if_neg (by omega), if_pos (by omega), if_pos h, hr]
    · rw [if_pos (by omega), if_pos h, hr]
  · rw [if_neg (by omega), if_neg (by omega), if_neg (by omega), if_neg (by omega), if_neg h]

/-- The state part-way through a LOAD phase that began with LCNT = 0: e elements written, u of them units taken from the
channel. -/
def loadedTo (s : State) (b : BlockBytes) (e u : Nat) : State :=
  { s with blkb := b, lcnt := e, plQ := s.plQ.drop u, rcnt := s.rcnt + u }

@[simp] theorem loadedTo_h (s : State) (b : BlockBytes) (e u : Nat) : (loadedTo s b e u).h = s.h := rfl
@[simp] theorem loadedTo_status (s : State) (b : BlockBytes) (e u : Nat) : (loadedTo s b e u).status = s.status := rfl
@[simp] theorem loadedTo_phase (s : State) (b : BlockBytes) (e u : Nat) : (loadedTo s b e u).phase = s.phase := rfl
@[simp] theorem loadedTo_pass (s : State) (b : BlockBytes) (e u : Nat) : (loadedTo s b e u).pass = s.pass := rfl
@[simp] theorem loadedTo_bidx (s : State) (b : BlockBytes) (e u : Nat) : (loadedTo s b e u).bidx = s.bidx := rfl
@[simp] theorem loadedTo_nblk (s : State) (b : BlockBytes) (e u : Nat) : (loadedTo s b e u).nblk = s.nblk := rfl
@[simp] theorem loadedTo_t (s : State) (b : BlockBytes) (e u : Nat) : (loadedTo s b e u).t = s.t := rfl
@[simp] theorem loadedTo_rcnt (s : State) (b : BlockBytes) (e u : Nat) : (loadedTo s b e u).rcnt = s.rcnt + u := rfl
@[simp] theorem loadedTo_lcnt (s : State) (b : BlockBytes) (e u : Nat) : (loadedTo s b e u).lcnt = e := rfl
@[simp] theorem loadedTo_opr (s : State) (b : BlockBytes) (e u : Nat) : (loadedTo s b e u).opr = s.opr := rfl
@[simp] theorem loadedTo_mlen (s : State) (b : BlockBytes) (e u : Nat) : (loadedTo s b e u).mlen = s.mlen := rfl
@[simp] theorem loadedTo_work (s : State) (b : BlockBytes) (e u : Nat) : (loadedTo s b e u).work = s.work := rfl
@[simp] theorem loadedTo_w (s : State) (b : BlockBytes) (e u : Nat) : (loadedTo s b e u).w = s.w := rfl
@[simp] theorem loadedTo_blkb (s : State) (b : BlockBytes) (e u : Nat) : (loadedTo s b e u).blkb = b := rfl
@[simp] theorem loadedTo_rst (s : State) (b : BlockBytes) (e u : Nat) : (loadedTo s b e u).rst = s.rst := rfl
@[simp] theorem loadedTo_cmdQ (s : State) (b : BlockBytes) (e u : Nat) : (loadedTo s b e u).cmdQ = s.cmdQ := rfl
@[simp] theorem loadedTo_plQ (s : State) (b : BlockBytes) (e u : Nat) : (loadedTo s b e u).plQ = s.plQ.drop u := rfl
@[simp] theorem loadedTo_obs (s : State) (b : BlockBytes) (e u : Nat) : (loadedTo s b e u).obs = s.obs := rfl

theorem elementSource_loadedTo (s : State) (b : BlockBytes) (e u : Nat) :
    elementSource (loadedTo s b e u) = elementSource { s with lcnt := e } :=
  elementSource_congr rfl rfl rfl rfl rfl rfl

theorem loadedTo_zero (s : State) (h0 : s.lcnt = 0) : loadedTo s s.blkb 0 0 = s := by
  cases s; simp_all [loadedTo]

/-- The LOAD phase of a byte command as far as e elements, the first u of the block coming from the channel: element i is the low
byte of unit i, or what the core generates (R54, R56, R196). -/
theorem settle_loadBytes (s : State) (hp : s.phase = .load) (hw : wordUnit s.opr = false) (h0 : s.lcnt = 0)
    (u : Nat) (g : Nat → Byte)
    (hsrc : ∀ e < 64, elementSource { s with lcnt := e } = if e < u then .payload else .generated (g e))
    (e : Nat) (he : e ≤ 64) (hu : min u e ≤ s.plQ.length) :
    ∃ b, settle s = settle (loadedTo s b e (min u e)) ∧
      ∀ i (hi : i < 64), i < e → b[i] = if i < u then unitByte (s.plQ.getD i 0) else g i := by
  induction e with
  | zero => exact ⟨s.blkb, by simp [loadedTo_zero s h0], fun i _ h => absurd h (by omega)⟩
  | succ e ih =>
    obtain ⟨b, hb, hbi⟩ := ih (by omega) (by omega)
    have hel : (loadedTo s b e (min u e)).lcnt < blockElements (loadedTo s b e (min u e)).opr := by
      simp only [loadedTo, blockElements, hw]; simp; omega
    have hph : (loadedTo s b e (min u e)).phase = .load := hp
    have hsr := elementSource_loadedTo s b e (min u e)
    rw [hsrc e (by omega)] at hsr
    have hns : starved (loadedTo s b e (min u e)) = false := by
      rw [Bool.eq_false_iff]
      intro hst
      obtain ⟨-, -, hpl, hq⟩ := (starved_iff _).1 hst
      have : e < u := by
        by_contra hc
        rw [hsr, if_neg hc] at hpl
        cases hpl
      simp only [loadedTo, List.drop_eq_nil_iff] at hq
      omega
    have hen : (loadedTo s b e (min u e)).enabled = true :=
      (enabled_iff _).2 ⟨(running_iff _).2 (by simp [hp]), hns⟩
    rw [hb, settle_microStep _ hen, microStep_load _ hph hel]
    rcases loadElement_cases _ hph hel hns with ⟨v, hv, eq⟩ | ⟨v, rest, hv, hq, eq⟩
    · have hge : ¬ e < u := by
        intro hc
        rw [hsr, if_pos hc] at hv
        cases hv
      rw [hsr, if_neg hge] at hv
      injection hv with hv
      refine ⟨memWrite1 b e v, ?_, ?_⟩
      · rw [eq]
        have : min u (e + 1) = min u e := by omega
        rw [this]
        rfl
      · intro i hi hie
        rw [memWrite1_get _ _ _ _ hi]
        by_cases hc : e = i
        · subst hc; rw [if_pos rfl, if_neg hge, hv]
        · rw [if_neg hc]; exact hbi i hi (by omega)
    · have hlt : e < u := by
        by_contra hc
        rw [hsr, if_neg hc] at hv
        cases hv
      have hm : min u e = e := by omega
      have hm' : min u (e + 1) = e + 1 := by omega
      have hlen : e < s.plQ.length := by omega
      rw [hm] at hq eq
      have hq' : v = s.plQ[e] ∧ rest = s.plQ.drop (e + 1) := by
        have := List.drop_eq_getElem_cons hlen
        simp only [loadedTo] at hq
        rw [this] at hq
        injection hq with h1 h2
        exact ⟨h1.symm, h2.symm⟩
      refine ⟨memWrite1 b e (unitByte v), ?_, ?_⟩
      · rw [hm, eq, hm', hq'.2]
        simp [loadedTo, hw, Nat.add_assoc]
      · intro i hi hie
        rw [memWrite1_get _ _ _ _ hi]
        by_cases hc : e = i
        · subst hc
          rw [if_pos rfl, if_pos hlt, hq'.1]
          simp [hlen]
        · rw [if_neg hc]; exact hbi i hi (by omega)

/-- The LOAD phase of a word command as far as e words: word j of the buffer is unit j as it arrived (R56). -/
theorem settle_loadWords (s : State) (hp : s.phase = .load) (hw : wordUnit s.opr = true) (h0 : s.lcnt = 0)
    (hsrc : ∀ e, elementSource { s with lcnt := e } = .payload)
    (e : Nat) (he : e ≤ 16) (hu : e ≤ s.plQ.length) :
    ∃ b, settle s = settle (loadedTo s b e e) ∧
      ∀ i (hi : i < 64), i < 4 * e → b[i] = wordByte (s.plQ.getD (i / 4) 0) (i % 4) := by
  induction e with
  | zero => exact ⟨s.blkb, by simp [loadedTo_zero s h0], fun i _ h => absurd h (by omega)⟩
  | succ e ih =>
    obtain ⟨b, hb, hbi⟩ := ih (by omega) (by omega)
    have hel : (loadedTo s b e e).lcnt < blockElements (loadedTo s b e e).opr := by
      simp only [loadedTo, blockElements, hw]; simp; omega
    have hph : (loadedTo s b e e).phase = .load := hp
    have hsr := (elementSource_loadedTo s b e e).trans (hsrc e)
    have hns : starved (loadedTo s b e e) = false := by
      rw [Bool.eq_false_iff]
      intro hst
      obtain ⟨-, -, -, hq⟩ := (starved_iff _).1 hst
      simp only [loadedTo, List.drop_eq_nil_iff] at hq
      omega
    have hen : (loadedTo s b e e).enabled = true :=
      (enabled_iff _).2 ⟨(running_iff _).2 (by simp [hp]), hns⟩
    rw [hb, settle_microStep _ hen, microStep_load _ hph hel]
    rcases loadElement_cases _ hph hel hns with ⟨v, hv, eq⟩ | ⟨v, rest, hv, hq, eq⟩
    · rw [hsr] at hv; cases hv
    · have hlen : e < s.plQ.length := by omega
      have hq' : v = s.plQ[e] ∧ rest = s.plQ.drop (e + 1) := by
        have := List.drop_eq_getElem_cons hlen
        simp only [loadedTo] at hq
        rw [this] at hq
        injection hq with h1 h2
        exact ⟨h1.symm, h2.symm⟩
      refine ⟨memWrite4 b e v, ?_, ?_⟩
      · rw [eq, hq'.2]
        simp [loadedTo, hw, Nat.add_assoc]
      · intro i hi hie
        rw [memWrite4_get _ _ _ _ hi]
        by_cases hc : i / 4 = e
        · rw [if_pos hc, hc, hq'.1]
          simp [hlen]
        · rw [if_neg hc]; exact hbi i hi (by omega)

theorem roundsUpTo_zero (W : Schedule) (r : Work) : roundsUpTo W r 0 = r := by simp [roundsUpTo]

theorem roundsUpTo_succ (W : Schedule) (r : Work) (n : Nat) (hn : n < 64) :
    roundsUpTo W r (n + 1) = roundStep (roundsUpTo W r n) K[n] W[n] := by
  unfold roundsUpTo
  rw [List.take_succ_eq_append_getElem (by simpa using hn)]
  simp

theorem roundsUpTo_all (W : Schedule) (r : Work) : roundsUpTo W r 64 = rounds W r := by
  unfold roundsUpTo rounds
  rw [List.take_of_length_le (by simp)]

/-- The state with rounds 0 to n-1 of its ROUND phase done. -/
def roundsDone (s : State) (n : Nat) (hn : n < 64) : State :=
  { s with work := roundsUpTo s.w s.work n, t := ⟨n, hn⟩ }

theorem roundsDone_enabled (s : State) (hp : s.phase = .round) (n : Nat) (hn : n < 64) :
    (roundsDone s n hn).enabled = true := by
  simp [enabled_iff, running_iff, starved, needsPayload, roundsDone, hp]

/-- The ROUND phase from its first round: n rounds done, n < 64 (R146). -/
theorem settle_rounds (s : State) (hp : s.phase = .round) (h0 : s.t = 0) (n : Nat) (hn : n < 64) :
    settle s = settle (roundsDone s n hn) := by
  induction n with
  | zero =>
    have : roundsDone s 0 hn = s := by
      cases s; simp_all [roundsDone, roundsUpTo_zero]
    rw [this]
  | succ n ih =>
    have hph : (roundsDone s n (by omega)).phase = .round := hp
    have hlt : (roundsDone s n (by omega)).t.val < 63 := by simp [roundsDone]; omega
    rw [ih (by omega), settle_microStep _ (roundsDone_enabled s hp n (by omega)), microStep_round _ hph,
      roundMicro_lt _ hlt]
    have ht : (⟨n, by omega⟩ : Fin 64) + 1 = ⟨n + 1, hn⟩ := by
      apply Fin.ext; simp [Fin.val_add]; omega
    simp only [roundsDone, ht, roundsUpTo_succ _ _ _ (show n < 64 by omega)]
    rfl

/-- The ROUND phase, all of it: 64 rounds, then ADD (R195). -/
theorem settle_allRounds (s : State) (hp : s.phase = .round) (h0 : s.t = 0) :
    settle s = settle { s with work := rounds s.w s.work, t := 63, phase := .add } := by
  have hph : (roundsDone s 63 (by omega)).phase = .round := hp
  have hlt : ¬ (roundsDone s 63 (by omega)).t.val < 63 := by simp [roundsDone]
  rw [settle_rounds s hp h0 63 (by omega), settle_microStep _ (roundsDone_enabled s hp 63 (by omega)),
    microStep_round _ hph, roundMicro_last _ hlt, ← roundsUpTo_all, roundsUpTo_succ _ _ _ (by omega)]
  rfl

/-- The state in which the add-back of a block stands: the compression of the buffer is done and H not yet written (R149). -/
def readyToAdd (s : State) : State :=
  { s with
    phase := .add
    h := if s.pass = .second then IV else s.h
    w := schedule s.blkw
    work := rounds (schedule s.blkw) (workOf (if s.pass = .second then IV else s.h))
    t := 63 }

@[simp] theorem readyToAdd_h (s : State) : (readyToAdd s).h = if s.pass = .second then IV else s.h := rfl
@[simp] theorem readyToAdd_status (s : State) : (readyToAdd s).status = s.status := rfl
@[simp] theorem readyToAdd_phase (s : State) : (readyToAdd s).phase = .add := rfl
@[simp] theorem readyToAdd_pass (s : State) : (readyToAdd s).pass = s.pass := rfl
@[simp] theorem readyToAdd_bidx (s : State) : (readyToAdd s).bidx = s.bidx := rfl
@[simp] theorem readyToAdd_nblk (s : State) : (readyToAdd s).nblk = s.nblk := rfl
@[simp] theorem readyToAdd_t (s : State) : (readyToAdd s).t = 63 := rfl
@[simp] theorem readyToAdd_rcnt (s : State) : (readyToAdd s).rcnt = s.rcnt := rfl
@[simp] theorem readyToAdd_lcnt (s : State) : (readyToAdd s).lcnt = s.lcnt := rfl
@[simp] theorem readyToAdd_opr (s : State) : (readyToAdd s).opr = s.opr := rfl
@[simp] theorem readyToAdd_mlen (s : State) : (readyToAdd s).mlen = s.mlen := rfl
@[simp] theorem readyToAdd_work (s : State) : (readyToAdd s).work = rounds (schedule s.blkw) (workOf (if s.pass = .second then IV else s.h)) := rfl
@[simp] theorem readyToAdd_w (s : State) : (readyToAdd s).w = schedule s.blkw := rfl
@[simp] theorem readyToAdd_blkb (s : State) : (readyToAdd s).blkb = s.blkb := rfl
@[simp] theorem readyToAdd_rst (s : State) : (readyToAdd s).rst = s.rst := rfl
@[simp] theorem readyToAdd_cmdQ (s : State) : (readyToAdd s).cmdQ = s.cmdQ := rfl
@[simp] theorem readyToAdd_plQ (s : State) : (readyToAdd s).plQ = s.plQ := rfl
@[simp] theorem readyToAdd_obs (s : State) : (readyToAdd s).obs = s.obs := rfl

/-- What the add-back of such a state writes is the compression of the block (R148, R150). -/
theorem addBack_compression (s : State) :
    addBack (if s.pass = .second then IV else s.h)
      (rounds (schedule s.blkw) (workOf (if s.pass = .second then IV else s.h))) =
    compress (if s.pass = .second then IV else s.h) s.blkw := rfl

/-- From a full block buffer through SCHED and the rounds to the add-back, which is done and leads on (R195, R141 to R148). -/
theorem settle_fullBlock (s : State) (hp : s.phase = .load) (hl : ¬ s.lcnt < blockElements s.opr) :
    settle s = settle (addStep (readyToAdd s)) := by
  have hen : s.enabled = true := by
    simp [enabled_iff, running_iff, starved, needsPayload, hp, hl]
  have hen2 : (endLoad s).enabled = true := by
    rw [endLoad_eq]; simp [enabled_iff, running_iff, starved, needsPayload]
  have hp2 : (endLoad s).phase = .sched := by rw [endLoad_eq]
  have hen3 : (readyToAdd s).enabled = true := by
    simp [enabled_iff, running_iff, starved, needsPayload]
  have hadd : settle s = settle (readyToAdd s) := by
    rw [settle_microStep s hen, microStep_endLoad s hp hl, settle_microStep _ hen2, microStep_sched _ hp2,
      settle_allRounds _ (schedStep_phase _) (schedStep_t _), endLoad_eq]
    rfl
  rw [hadd, settle_microStep _ hen3, microStep_add _ rfl]

/-- A whole block of a byte command, the first u of its bytes from the payload channel, up to and including its add-back. -/
theorem settle_byteBlock (s : State) (hp : s.phase = .load) (hw : wordUnit s.opr = false) (h0 : s.lcnt = 0)
    (u : Nat) (g : Nat → Byte) (hu64 : u ≤ 64)
    (hsrc : ∀ e < 64, elementSource { s with lcnt := e } = if e < u then .payload else .generated (g e))
    (hu : u ≤ s.plQ.length) :
    settle s = settle (addStep (readyToAdd (loadedTo s
      (Vector.ofFn fun i : Fin 64 => if i.val < u then unitByte (s.plQ.getD i 0) else g i) 64 u))) := by
  obtain ⟨b, hb, hbi⟩ := settle_loadBytes s hp hw h0 u g hsrc 64 (by omega) (by omega)
  have hv : b = Vector.ofFn fun i : Fin 64 => if i.val < u then unitByte (s.plQ.getD i 0) else g i := by
    ext i hi
    rw [hbi i hi hi]
    simp
  rw [hb, ← hv, show min u 64 = u by omega]
  exact settle_fullBlock _ hp (by simp [blockElements, hw])

/-- A whole block of a word command, up to and including its add-back; the bytes in the buffer are those of the words. -/
theorem settle_wordBlock (s : State) (hp : s.phase = .load) (hw : wordUnit s.opr = true) (h0 : s.lcnt = 0)
    (hsrc : ∀ e, elementSource { s with lcnt := e } = .payload) (hu : 16 ≤ s.plQ.length) :
    settle s = settle (addStep (readyToAdd (loadedTo s (unpack s.payloadWordBlock) 16 16))) := by
  obtain ⟨b, hb, hbi⟩ := settle_loadWords s hp hw h0 hsrc 16 (by omega) hu
  have hv : b = unpack s.payloadWordBlock := by
    ext i hi
    rw [hbi i hi (by omega)]
    simp [unpack, State.payloadWordBlock]
  rw [hb, hv]
  exact settle_fullBlock _ hp (by simp [blockElements, hw])

end Sys2Proof.Machine
end

