-- ==== Sys2Proof/Laws/Hashing.lean ====
section
/-! SUPPORT. Pass 0 of HASH and DHASH: the LOAD of a block of the padded message, and all its blocks by induction. -/

namespace Sys2Proof.Machine

/-- The first case of R183 apart from the other three. -/
theorem paddedByte_eq (M : List Byte) (k : Nat) :
    paddedByte M k = if k < M.length then M.getD k 0 else padByte M.length k := by
  unfold paddedByte
  by_cases h : k < M.length
  · simp [h]
  · simp [h]

/-- The serialized State has 32 bytes (R186). -/
theorem ser_length (S : HashState) : (ser S).length = 32 := by
  have h : ∀ l : List Word, (l.flatMap unbe32).length = 4 * l.length := by
    intro l
    induction l with
    | nil => rfl
    | cons a l ih => simp [ih, unbe32]; omega
  simp [ser, h]

/-- The second-pass block is block 0 of the padded serialized State (R57, R190). -/
theorem block2_eq_messageBlock (S : HashState) : block2 S = messageBlock (ser S) 0 := by
  simp [block2, messageBlock, block2Byte]

/-- The driver, one block more (R185). -/
theorem chainFrom_succ (M : List Byte) (S : HashState) (n : Nat) :
    chainFrom M S (n + 1) = compress (chainFrom M S n) (pack (messageBlock M n)) := by
  simp [chainFrom, List.range_succ]

/-- The LOAD state of block n of the message that the first L units of `pl` carry. -/
structure HashLoad (pl : List Word) (s : State) (n : Nat) : Prop where
  phase : s.phase = .load
  pass : s.pass = .first
  opr : s.opr = 0x05#8 ∨ s.opr = 0x06#8
  nblk : s.nblk = nblocks s.mlen.toNat
  bidx : s.bidx = n
  lcnt : s.lcnt = 0
  plQ : s.plQ = pl.drop (min s.mlen.toNat (64 * n))
  rcnt : s.rcnt = min s.mlen.toNat (64 * n)

theorem HashLoad.source {pl s n} (h : HashLoad pl s n) (e : Nat) (he : e < 64) :
    elementSource { s with lcnt := e } =
      if e < min s.mlen.toNat (64 * (n + 1)) - min s.mlen.toNat (64 * n) then .payload
      else .generated (padByte s.mlen.toNat (64 * n + e)) := by
  have ho : ¬ (s.opr = 0x02#8 ∨ s.opr = 0x03#8 ∨ s.opr = 0x04#8) := by
    rcases h.opr with e | e <;> simp [e]
  simp only [elementSource, h.pass, h.bidx]
  rw [if_neg ho]
  by_cases hc : 64 * n + e < s.mlen.toNat
  · rw [if_pos hc, if_pos (by omega)]
  · rw [if_neg hc, if_neg (by omega)]

/-- One block of the message, up to and including its add-back (R184, R188). -/
theorem HashLoad.settle_block {pl s n} (h : HashLoad pl s n) (hlen : s.mlen.toNat ≤ pl.length) :
    settle s = settle (addStep (readyToAdd (loadedTo s
      (messageBlock ((pl.take s.mlen.toNat).map unitByte) n) 64
      (min s.mlen.toNat (64 * (n + 1)) - min s.mlen.toNat (64 * n))))) := by
  have hw : wordUnit s.opr = false := by rcases h.opr with e | e <;> simp [e, wordUnit]
  have hv : messageBlock ((pl.take s.mlen.toNat).map unitByte) n = Vector.ofFn fun i : Fin 64 =>
      if i.val < min s.mlen.toNat (64 * (n + 1)) - min s.mlen.toNat (64 * n) then unitByte (s.plQ.getD i 0)
      else padByte s.mlen.toNat (64 * n + i) := ?_
  · rw [hv]
    exact settle_byteBlock s h.phase hw h.lcnt _ (fun e => padByte s.mlen.toNat (64 * n + e)) (by omega)
      (fun e he => HashLoad.source h e he) (by rw [h.plQ, List.length_drop]; omega)
  apply Vector.ext
  intro i hi
  simp only [messageBlock, Vector.getElem_ofFn, paddedByte_eq, List.length_map, List.length_take,
    show min s.mlen.toNat pl.length = s.mlen.toNat by omega]
  by_cases hc : 64 * n + i < s.mlen.toNat
  · rw [if_pos hc, if_pos (by omega), h.plQ, show min s.mlen.toNat (64 * n) = 64 * n by omega]
    simp [hc, show 64 * n + i < pl.length by omega]
  · rw [if_neg hc, if_neg (by omega)]

/-- All blocks of pass 0 from block n on: the state of the last add-back, what it writes into H, and what has been consumed
(R185, R188). -/
theorem settle_hashPass (pl : List Word) (k : Nat) : ∀ (s : State) (n : Nat), HashLoad pl s n → s.mlen.toNat ≤ pl.length →
    n + k + 1 = s.nblk → ∀ S, s.h = chainFrom ((pl.take s.mlen.toNat).map unitByte) S n →
    ∃ t, settle s = settle (addStep t) ∧
      addBack t.h t.work = chainFrom ((pl.take s.mlen.toNat).map unitByte) S s.nblk ∧
      ¬ t.bidx + 1 < t.nblk ∧ t.pass = .first ∧ t.opr = s.opr ∧ t.mlen = s.mlen ∧ t.status = s.status ∧
      t.plQ = pl.drop s.mlen.toNat ∧ t.rcnt = s.mlen.toNat ∧ t.cmdQ = s.cmdQ ∧ t.rst = s.rst ∧ t.obs = s.obs := by
  induction k with
  | zero =>
    intro s n h hlen hn S hS
    have hN : s.mlen.toNat ≤ 64 * (n + 1) := by
      have := h.nblk; unfold nblocks at this; omega
    refine ⟨_, h.settle_block hlen, ?_, ?_, ?_, rfl, rfl, rfl, ?_, ?_, rfl, rfl, rfl⟩
    · rw [← hn, chainFrom_succ, ← hS]
      simp [compress, State.blkw, h.pass]
    · simp [h.bidx]; omega
    · exact h.pass
    · simp only [readyToAdd_plQ, loadedTo_plQ, h.plQ, List.drop_drop]
      congr 1; omega
    · simp only [readyToAdd_rcnt, loadedTo_rcnt, h.rcnt]; omega
  | succ k ih =>
    intro s n h hlen hn S hS
    have hmore : s.bidx + 1 < s.nblk := by rw [h.bidx]; omega
    rw [h.settle_block hlen, addStep_more _ (by simpa using hmore)]
    have h' : HashLoad pl (enterLoad s.pass (s.bidx + 1) s.nblk (addBackH (readyToAdd (loadedTo s
      (messageBlock ((pl.take s.mlen.toNat).map unitByte) n) 64
      (min s.mlen.toNat (64 * (n + 1)) - min s.mlen.toNat (64 * n)))))) (n + 1) := by
      constructor
      · simp
      · simp [h.pass]
      · simp [h.opr]
      · simp [h.nblk]
      · simp [h.bidx]
      · simp
      · simp only [enterLoad_plQ, addBackH_plQ, readyToAdd_plQ, loadedTo_plQ, h.plQ, List.drop_drop, enterLoad_mlen, addBackH_mlen, readyToAdd_mlen, loadedTo_mlen]; congr 1; omega
      · simp only [enterLoad_rcnt, addBackH_rcnt, readyToAdd_rcnt, loadedTo_rcnt, h.rcnt, enterLoad_mlen, addBackH_mlen, readyToAdd_mlen, loadedTo_mlen]; omega
    obtain ⟨t, ht⟩ := ih _ (n + 1) h' (by simpa using hlen) (by simp; omega) S (by
      simp only [enterLoad_mlen, addBackH_mlen, readyToAdd_mlen, loadedTo_mlen]
      rw [chainFrom_succ, ← hS]
      simp [compress, State.blkw, h.pass])
    exact ⟨t, by simpa using ht⟩

end Sys2Proof.Machine
end

