-- ==== Sys2Proof/Laws/Ops.lean ====
section
/-! SUPPORT. What the shared operations around a command can do: the guard of an acceptance, the transfer of a command word, the
first transition of each command, and the whole command as that transition run to its end. -/

namespace Sys2Proof.Machine

theorem cmdReady_iff (s : State) :
    s.cmdReady = true ↔ s.rst = false ∧ s.status.busy = false ∧ s.status.fault = false := by
  simp [State.cmdReady, and_assoc]

theorem whenReady_ready (s : State) (k : State → StepResult) (h : s.cmdReady = true) : whenReady s k = k s := by
  simp [whenReady, h]

theorem whenReady_notReady (s : State) (k : State → StepResult) (h : s.cmdReady = false) :
    whenReady s k = .refused .notAccepted := by
  simp [whenReady, h]

@[simp] theorem settled_next (s : State) : settled (.next s) = .next (settle s) := rfl
@[simp] theorem settled_refused (r : Refusal) : settled (.refused r) = .refused r := rfl

/-- A whole command is its first transition, run until it completes or waits (R195, R200). -/
theorem exec_eq_settled_start (i : Instr) (s : State) : exec i s = settled (start i s) := by
  cases i <;> rfl

/-- No command is accepted while `cmd_ready` is 0 (R95, U11). -/
theorem exec_notReady (i : Instr) (s : State) (h : s.cmdReady = false) : exec i s = .refused .notAccepted := by
  rw [exec_eq_settled_start]
  cases i <;>
    simp [start, beginInit, beginCmpb, beginCmpw, beginMidstate, beginHash, beginDhash, whenReady_notReady _ _ h]

/-- The transfer on the command channel, by cases: none, a command, or a reserved opcode (R81, R90 step 1). -/
theorem fetch_cases (s : State) :
    (fetch s = .nothing ∧ (s.cmdReady = false ∨ s.cmdQ = [])) ∨
    (∃ cw rest, s.cmdReady = true ∧ s.cmdQ = cw :: rest ∧
      ((∃ i, decode cw = .ok i ∧ fetch s = .command i { s with cmdQ := rest }) ∨
       (∃ op, decode cw = .error (.reservedOpcode op) ∧
         fetch s = .reserved op (lenField cw) { s with cmdQ := rest }))) := by
  cases hr : s.cmdReady with
  | false => exact .inl ⟨by simp [fetch, hr], .inl rfl⟩
  | true =>
    cases hq : s.cmdQ with
    | nil => exact .inl ⟨by simp [fetch, hr, hq], .inr rfl⟩
    | cons cw rest =>
      refine .inr ⟨cw, rest, rfl, rfl, ?_⟩
      cases hd : decode cw with
      | ok i => exact .inl ⟨i, rfl, by simp [fetch, hr, hq, hd]⟩
      | error e =>
        cases e with
        | reservedOpcode op => exact .inr ⟨op, rfl, by simp [fetch, hr, hq, hd]⟩

/-- The first transition of an accepted command, when it has one: the fault entry, INIT's completion, or the LOAD of block 0
from the H that is there (CMPB, CMPW) or from IV (MIDSTATE, HASH, DHASH) (R195 IDLE rows). -/
theorem start_next {i : Instr} {s t : State} (h : start i s = .next t) :
    s.cmdReady = true ∧
    (t = raise .invalidLength (accept i.opcode i.len s) ∨
     (i = .init 0#64 ∧ t = complete (loadIV (accept i.opcode i.len s))) ∨
     ((i = .cmpb 64#64 ∨ i = .cmpw 16#64) ∧ t = enterLoad .first 0 1 (accept i.opcode i.len s)) ∨
     (i = .midstate 16#64 ∧ t = enterLoad .first 0 1 (loadIV (accept i.opcode i.len s))) ∨
     ((∃ l, l.toNat < Config.messageBound ∧ (i = .hash l ∨ i = .dhash l)) ∧
       t = enterLoad .first 0 (nblocks i.len.toNat) (loadIV (accept i.opcode i.len s)))) := by
  cases hr : s.cmdReady with
  | false =>
    cases i <;>
      simp [start, beginInit, beginCmpb, beginCmpw, beginMidstate, beginHash, beginDhash, whenReady, hr] at h
  | true =>
    refine ⟨rfl, ?_⟩
    cases i with
    | init l =>
      simp only [start, beginInit, whenReady_ready _ _ hr] at h
      split at h <;> injection h with h
      · subst_vars; exact .inr (.inl ⟨rfl, rfl⟩)
      · exact .inl h.symm
    | cmpb l =>
      simp only [start, beginCmpb, whenReady_ready _ _ hr] at h
      split at h <;> injection h with h
      · subst_vars; exact .inr (.inr (.inl ⟨.inl rfl, rfl⟩))
      · exact .inl h.symm
    | cmpw l =>
      simp only [start, beginCmpw, whenReady_ready _ _ hr] at h
      split at h <;> injection h with h
      · subst_vars; exact .inr (.inr (.inl ⟨.inr rfl, rfl⟩))
      · exact .inl h.symm
    | midstate l =>
      simp only [start, beginMidstate, whenReady_ready _ _ hr] at h
      split at h <;> injection h with h
      · subst_vars; exact .inr (.inr (.inr (.inl ⟨rfl, rfl⟩)))
      · exact .inl h.symm
    | hash l =>
      simp only [start, beginHash, whenReady_ready _ _ hr] at h
      split at h
      · rename_i hl
        injection h with h
        exact .inr (.inr (.inr (.inr ⟨⟨l, hl, .inl rfl⟩, h.symm⟩)))
      · cases h
    | dhash l =>
      simp only [start, beginDhash, whenReady_ready _ _ hr] at h
      split at h
      · rename_i hl
        injection h with h
        exact .inr (.inr (.inr (.inr ⟨⟨l, hl, .inr rfl⟩, h.symm⟩)))
      · cases h

end Sys2Proof.Machine
end

