-- ==== Sys2Proof/Laws/PerInstr.lean ====
section
/-! SUPPORT. The per-command family EncodedFields: the command word of a command holds its opcode, which is not a reserved one, in
CW[71:64] and its LEN in CW[63:0] (30_encoding.md R82, R84). -/

namespace Sys2Proof.Laws

/-- The two fields of an encoded command, and that its opcode is one of 0x01 to 0x06. -/
def EncodedFields.Statement (i : Instr) : Prop :=
  opField (encode i) = i.opcode ∧ lenField (encode i) = i.len ∧ 1 ≤ i.opcode.toNat ∧ i.opcode.toNat ≤ 6

/-- The upper eight bits of OP ++ LEN are OP. -/
theorem opField_append (op : Opcode) (len : Len) : opField (op ++ len) = op := by
  ext k hk
  simp only [opField, BitVec.getElem_extractLsb', BitVec.getLsbD_append]
  simp [BitVec.getLsbD_eq_getElem hk]

/-- The lower 64 bits of OP ++ LEN are LEN. -/
theorem lenField_append (op : Opcode) (len : Len) : lenField (op ++ len) = len := by
  ext k hk
  simp only [lenField, BitVec.getElem_extractLsb', BitVec.getLsbD_append]
  simp [hk]

theorem EncodedFields.init (len : Len) : EncodedFields.Statement (.init len) :=
  ⟨opField_append _ _, lenField_append _ _, (by decide : 1 ≤ (0x01#8).toNat), (by decide : (0x01#8).toNat ≤ 6)⟩

theorem EncodedFields.cmpb (len : Len) : EncodedFields.Statement (.cmpb len) :=
  ⟨opField_append _ _, lenField_append _ _, (by decide : 1 ≤ (0x02#8).toNat), (by decide : (0x02#8).toNat ≤ 6)⟩

theorem EncodedFields.cmpw (len : Len) : EncodedFields.Statement (.cmpw len) :=
  ⟨opField_append _ _, lenField_append _ _, (by decide : 1 ≤ (0x03#8).toNat), (by decide : (0x03#8).toNat ≤ 6)⟩

theorem EncodedFields.midstate (len : Len) : EncodedFields.Statement (.midstate len) :=
  ⟨opField_append _ _, lenField_append _ _, (by decide : 1 ≤ (0x04#8).toNat), (by decide : (0x04#8).toNat ≤ 6)⟩

theorem EncodedFields.hash (len : Len) : EncodedFields.Statement (.hash len) :=
  ⟨opField_append _ _, lenField_append _ _, (by decide : 1 ≤ (0x05#8).toNat), (by decide : (0x05#8).toNat ≤ 6)⟩

theorem EncodedFields.dhash (len : Len) : EncodedFields.Statement (.dhash len) :=
  ⟨opField_append _ _, lenField_append _ _, (by decide : 1 ≤ (0x06#8).toNat), (by decide : (0x06#8).toNat ≤ 6)⟩

end Sys2Proof.Laws
end

