-- ==== Sys2Proof/Laws/Ports.lean ====
section
/-! SUPPORT. What a host action can do: its effect where the spec backs it, a refusal otherwise. -/

namespace Sys2Proof.Machine

theorem HostAction.apply_permitted (a : HostAction) (s : State) (h : a.permitted s = true) :
    a.apply s = .next (a.effect s) := by
  simp [HostAction.apply, h]

theorem HostAction.apply_refused (a : HostAction) (s : State) (h : a.permitted s = false) :
    a.apply s = .refused .handshakeBroken := by
  simp [HostAction.apply, h]

/-- All that a host action can do. -/
theorem HostAction.apply_next {a : HostAction} {s t : State} (h : a.apply s = .next t) :
    a.permitted s = true ∧ t = a.effect s := by
  cases hp : a.permitted s with
  | false => rw [HostAction.apply_refused a s hp] at h; cases h
  | true => rw [HostAction.apply_permitted a s hp] at h; injection h with h; exact ⟨rfl, h.symm⟩

end Sys2Proof.Machine
end

