-- ==== Sys2Proof/Laws/Step.lean ====
section
/-! SUPPORT. What a step and a tick can be: a reset edge, a command, IllegalCommand, or the sequencer's own advance. -/

namespace Sys2Proof.Machine

theorem step_reset (s : State) (h : s.rst = true) : step s = .next (resetEdge s) := by simp [step, h]

theorem step_command {s s' : State} {i : Instr} (hr : s.rst = false) (hf : fetch s = .command i s') :
    step s = exec i s' := by simp [step, hr, hf]

theorem step_reserved {s s' : State} {op : Opcode} {len : Len} (hr : s.rst = false)
    (hf : fetch s = .reserved op len s') : step s = .next (illegalCommand op len s') := by simp [step, hr, hf]

theorem step_nothing {s : State} (hr : s.rst = false) (hf : fetch s = .nothing) : step s = .next (settle s) := by
  simp [step, hr, hf]

theorem tick_reset (s : State) (h : s.rst = true) : tick s = .next (resetEdge s) := by simp [tick, h]

theorem tick_command {s s' : State} {i : Instr} (hr : s.rst = false) (hf : fetch s = .command i s') :
    tick s = start i s' := by simp [tick, hr, hf]

theorem tick_reserved {s s' : State} {op : Opcode} {len : Len} (hr : s.rst = false)
    (hf : fetch s = .reserved op len s') : tick s = .next (illegalCommand op len s') := by simp [tick, hr, hf]

theorem tick_nothing {s : State} (hr : s.rst = false) (hf : fetch s = .nothing) : tick s = .next (microStep s) := by
  simp [tick, hr, hf]

/-- No word is taken from the channel while `cmd_ready` is 0 or none is presented (R81). -/
theorem fetch_nothing {s : State} (h : s.cmdReady = false ∨ s.cmdQ = []) : fetch s = .nothing := by
  rcases h with h | h
  · simp [fetch, h]
  · cases hr : s.cmdReady <;> simp [fetch, h, hr]

/-- Everything one tick can do: reset, one of the first transitions of a command, IllegalCommand, or one row of the
sequencer. -/
theorem tick_cases {s t : State} (h : tick s = .next t) :
    (s.rst = true ∧ t = resetEdge s) ∨
    (∃ i rest, s.cmdReady = true ∧ fetch s = .command i { s with cmdQ := rest } ∧
      start i { s with cmdQ := rest } = .next t) ∨
    (∃ op len rest, s.cmdReady = true ∧ t = illegalCommand op len { s with cmdQ := rest }) ∨
    (s.rst = false ∧ (s.cmdReady = false ∨ s.cmdQ = []) ∧ t = microStep s) := by
  by_cases hr : s.rst = true
  · rw [tick_reset s hr] at h
    injection h with h
    exact .inl ⟨hr, h.symm⟩
  · rw [Bool.not_eq_true] at hr
    rcases fetch_cases s with ⟨hf, hc⟩ | ⟨cw, rest, hc, -, ⟨i, -, hf⟩ | ⟨op, -, hf⟩⟩
    · rw [tick_nothing hr hf] at h
      injection h with h
      exact .inr (.inr (.inr ⟨hr, hc, h.symm⟩))
    · rw [tick_command hr hf] at h
      exact .inr (.inl ⟨i, rest, hc, hf, h⟩)
    · rw [tick_reserved hr hf] at h
      injection h with h
      exact .inr (.inr (.inl ⟨op, _, rest, hc, h.symm⟩))

end Sys2Proof.Machine
end

