-- ==== Sys2Proof/Tests/Slice0.lean ====
section
/-! SUPPORT. The model's own tests, each about one step or one function, with expected values from the spec (95_test_vectors.md
unless a test says otherwise), and for every obligation that has hypotheses a state and operands that meet them. -/

namespace Sys2Proof.Tests

open Sys2Proof.Machine

/-! ## Small states -/

/-- The reset state with commands and payload presented. -/
def ready (cmds : List CommandWord) (units : List Word) : State := { State.reset with cmdQ := cmds, plQ := units }

/-- Halted on InvalidLength. -/
def halted : State := raise .invalidLength (accept 0x02#8 63#64 State.reset)

/-- CMPB accepted, in LOAD, with these units presented. -/
def loading (units : List Word) : State := enterLoad .first 0 1 (accept 0x02#8 64#64 (ready [] units))

/-- A compression of CMPB in its last round, and the same compression at its add-back. -/
def lastRound : State :=
  let s := schedStep { loading [] with lcnt := 64, rcnt := 64 }
  { s with t := 63, work := roundsUpTo s.w (workOf s.h) 63 }
def adding : State :=
  let s := schedStep { loading [] with lcnt := 64, rcnt := 64 }
  { s with t := 63, work := rounds s.w (workOf s.h), phase := .add }

/-- What a view shows of the next state, where there is one. -/
def shown {α : Type} (f : State → α) : StepResult → Option α
  | .next s => some (f s)
  | .fault _ => none
  | .refused _ => none

/-- The block of "abc" in word form (section 5.1) and in byte units (program P1). -/
def abcWords : List Word := [0x61626380, 0, 0, 0, 0, 0, 0, 0, 0, 0, 0, 0, 0, 0, 0, 0x18]
def abcBytes : List Word := [0x61, 0x62, 0x63, 0x80] ++ List.replicate 59 0 ++ [0x18]

/-- The State that is the digest of "abc" (section 5.1). -/
def abcState : HashState :=
  #v[0xba7816bf, 0x8f01cfea, 0x414140de, 0x5dae2223, 0xb00361a3, 0x96177a9c, 0xb410ff61, 0xf20015ad]

/-- The block B1 of section 1, and the 80 byte units HDR. -/
def headerWords : List Word := [0x01000000, 0, 0, 0, 0, 0, 0, 0, 0,
  0x3ba3edfd, 0x7a7b12b2, 0x7ac72c3e, 0x67768f61, 0x7fc81bc3, 0x888a5132, 0x3a9fb8aa]
def headerTail : List Word := [0x4b1e5e4a, 0x29ab5f49, 0xffff001d, 0x1dac2b7c]
def headerBytes : List Word := (headerWords ++ headerTail).flatMap fun w => (unbe32 w).map byteUnit

/-! ## Well-formedness: the legal values of LEN (30_encoding.md R83), and an illegal one next to each -/

theorem test_wellFormed_init : (Instr.init 0).wellFormed = true ∧ (Instr.init 1).wellFormed = false := by decide
theorem test_wellFormed_cmpb : (Instr.cmpb 64).wellFormed = true ∧ (Instr.cmpb 63).wellFormed = false := by decide
theorem test_wellFormed_cmpw : (Instr.cmpw 16).wellFormed = true ∧ (Instr.cmpw 64).wellFormed = false := by decide
theorem test_wellFormed_midstate :
    (Instr.midstate 16).wellFormed = true ∧ (Instr.midstate 17).wellFormed = false := by decide
theorem test_wellFormed_hash :
    (Instr.hash 0x1fffffffffffffff).wellFormed = true ∧ (Instr.hash 0x2000000000000000).wellFormed = false := by decide
theorem test_wellFormed_dhash :
    (Instr.dhash 0x1fffffffffffffff).wellFormed = true ∧ (Instr.dhash 0x2000000000000000).wellFormed = false := by decide

/-! ## Decoding: OP in CW[71:64], LEN in CW[63:0] (30_encoding.md R82, R84); words of section 9 and of section 8 -/

theorem test_decode_init : decode 0x010000000000000000#72 = .ok (.init 0) := by decide
theorem test_decode_cmpb : decode 0x020000000000000040#72 = .ok (.cmpb 64) := by decide
theorem test_decode_cmpw : decode 0x030000000000000010#72 = .ok (.cmpw 16) := by decide
theorem test_decode_midstate : decode 0x040000000000000010#72 = .ok (.midstate 16) := by decide
theorem test_decode_hash : decode 0x050000000000000020#72 = .ok (.hash 32) := by decide
theorem test_decode_dhash : decode 0x060000000000000050#72 = .ok (.dhash 80) := by decide

/-- Bit by bit: bits 66 and 64 make OP = 0x05, bits 60 and 0 are LEN = 2^60 + 1; every bit of LEN is kept. -/
theorem test_decode_bits : decode (BitVec.ofNat 72 (2 ^ 66 + 2 ^ 64 + 2 ^ 60 + 1)) = .ok (.hash 0x1000000000000001) := by decide

/-- The largest LEN is still decoded: R90 step 1 looks at OP alone. -/
theorem test_decode_longest : decode 0x02ffffffffffffffff#72 = .ok (.cmpb 0xffffffffffffffff) := by decide

/-- OP 0x00, 0x07 and 0xff are reserved (section 8, program P7). -/
theorem test_decode_reserved :
    decode 0x000000000000000000#72 = .error (.reservedOpcode 0x00) ∧
    decode 0x070000000000000040#72 = .error (.reservedOpcode 0x07) ∧
    decode 0xff0000000000000010#72 = .error (.reservedOpcode 0xff) := by decide

/-- The opcode table's words, 72 bits or 8 of them. -/
theorem test_decodeTableWord :
    decodeTableWord 72 0x030000000000000010 = some (.cmpw 16) ∧ decodeTableWord 72 0x070000000000000000 = none ∧
    decodeTableWord 8 0x03 = none := by decide

/-! ## Functions (section 3, section 5) -/

theorem test_add32_wraps : add32 0xfffffffe 0x00000003 = 0x00000001 ∧ add32 0x80000000 0x80000000 = 0 := by decide
theorem test_rotr : rotr 0x12345678 1 = 0x091a2b3c ∧ rotr 0x12345678 31 = 0x2468acf0 := by decide
theorem test_sigmas : ssig0 0x12345678 = 0xe7fce6ee ∧ ssig1 0x12345678 = 0xa1f78649 ∧
    bsig0 0x12345678 = 0x66146474 ∧ bsig1 0x12345678 = 0x3561abda := by decide
theorem test_ch_maj : ch 0xf0f0f0f0 0xaaaaaaaa 0x55555555 = 0xa5a5a5a5 ∧
    maj 0x6a09e667 0xbb67ae85 0x3c6ef372 = 0x3a6fe667 := by decide
theorem test_endian : be32 0x61 0x62 0x63 0x80 = 0x61626380 ∧ unbe32 0xba7816bf = [0xba, 0x78, 0x16, 0xbf] ∧
    be64 640 = [0, 0, 0, 0, 0, 0, 0x02, 0x80] := by decide
theorem test_nblocks : [0, 55, 56, 63, 64, 80, 119, 120, 128, 1000].map nblocks = [1, 1, 2, 2, 2, 2, 2, 3, 3, 16] := by
  decide

/-- The padded message of "abc" (section 4). -/
theorem test_pad : pad [0x61, 0x62, 0x63] =
    [0x61, 0x62, 0x63, 0x80] ++ List.replicate 52 0 ++ [0, 0, 0, 0, 0, 0, 0, 0x18] := by decide +kernel

/-- Two rows of section 5.2: the schedule of 0, 1, ..., 15 at i = 16 and 63. -/
theorem test_schedule : (schedule (Vector.ofFn fun i => BitVec.ofNat 32 i.val))[16] = 0x02070009 ∧
    (schedule (Vector.ofFn fun i => BitVec.ofNat 32 i.val))[63] = 0x25d8ab57 := by decide +kernel

/-- A row of section 5.3, and round 0 of section 5.1. -/
theorem test_compress : compress (Vector.replicate 8 0) (Vector.replicate 16 0) = #v[
    0x7ca51614, 0x425c3ba8, 0xce54dd2f, 0xc2020ae7, 0xb6e574d1, 0x98136d0f, 0xae7e26cc, 0xbf0be7a6] := by decide +kernel
theorem test_round : roundStep (workOf IV) K[0] 0x61626380 = ⟨0x5d6aebcd, 0x6a09e667, 0xbb67ae85, 0x3c6ef372,
    0xfa2a4622, 0x510e527f, 0x9b05688c, 0x1f83d9ab⟩ := by decide

/-! ## One step of each command -/

/-- INIT after "abc" (section 6). -/
theorem test_init : shown (·.dig 0) (step { ready [0x010000000000000000] [] with h := abcState }) = some 0x6a := by decide

/-- CMPB, program P1; bits 31:8 of a byte unit do not matter (section 5.4). -/
theorem test_cmpb : shown (·.h) (step (ready [0x020000000000000040] abcBytes)) = some abcState := by decide +kernel
theorem test_cmpb_upperBits : shown (·.h) (step (ready [0x020000000000000040] (abcBytes.map (0xdeadbe00 + ·)))) =
    some abcState := by decide +kernel

/-- CMPW of the same block. -/
theorem test_cmpw : shown (·.h) (step (ready [0x030000000000000010] abcWords)) = some abcState := by decide +kernel

/-- V3 and program P3: the midstate, whatever H was. -/
theorem test_midstate :
    shown (·.h) (step { ready [0x040000000000000010] headerWords with h := abcState }) = some #v[
      0xbc909a33, 0x6358bff0, 0x90ccac7d, 0x1e59caa8, 0xc3c8d8e9, 0x4f0103c8, 0x96b18736, 0x4719f91b] := by decide +kernel

/-- Program P5: HASH "abc"; two blocks (section 6): 56 bytes 61. -/
theorem test_hash : shown (fun s => (s.stateO, s.statusO, s.plQ)) (step (ready [0x050000000000000003] [0x61, 0x62, 0x63, 7])) =
    some (0xba7816bf8f01cfea414140de5dae2223b00361a396177a9cb410ff61f20015ad, 0x00, [7]) := by decide +kernel
theorem test_hash_twoBlocks :
    shown (·.stateO) (step (ready [0x050000000000000038] (List.replicate 56 0x61))) =
      some 0xb35439a4ac6f0948b6d6f9e3c6af0f5f590ce20f1bde7090ef7970686ec6738a := by decide +kernel

/-- V1 and program P2, the source's known answer; and the empty message (program P8). -/
theorem test_dhash : shown (·.stateO) (step (ready [0x060000000000000050] headerBytes)) =
    some 0x6fe28c0ab6f1b372c1a6a246ae63f74f931e8365e15a089c68d6190000000000 := by decide +kernel
theorem test_dhash_empty : shown (·.stateO) (step (ready [0x060000000000000000] [])) =
    some 0x5df6e0e2761359d30a8275058e299fcc0381534545f55cf43e41983f5d4c9456 := by decide +kernel

/-! ## Faults, refusals, waiting, reset (section 8, programs P6 and P7) -/

/-- Program P6: STATUS 06, H unchanged, no unit consumed. -/
theorem test_invalidLength :
    shown (fun s => (s.statusO, s.h, s.plQ.length, s.cmdReady))
      (step { ready [0x02000000000000003f] (List.replicate 63 0x78) with h := abcState }) =
        some (0x06, abcState, 63, false) := by decide +kernel

/-- Program P7: STATUS 0a. -/
theorem test_illegalCommand : shown (fun s => (s.statusO, s.h, s.plQ)) (step (ready [0x070000000000000040] [1])) =
    some (0x0a, IV, [1]) := by decide +kernel

/-- Section 8, last row: refuse. -/
theorem test_messageTooLong :
    step (ready [0x052000000000000000] []) = .refused (.messageTooLong 0x2000000000000000) := by rfl

/-- R55: two of three units presented; the core waits in LOAD. -/
theorem test_waits : shown (fun s => (s.phase, s.rcnt, s.plReady, s.statusO)) (step (ready [0x050000000000000003] [0x61, 0x62])) =
    some (.load, 2, true, 0x01) := by decide +kernel

/-- Program P6: reset ends the halt; the units stay with the host. -/
theorem test_reset : shown (fun s => (s.statusO, s.h, s.plQ)) (step { halted with rst := true, h := abcState, plQ := [0x78] }) =
    some (0x00, IV, [0x78]) := by decide +kernel

/-- Program P6: beside the reset the host withdraws the pending command and the units. -/
theorem test_withdraw_besideReset :
    shown (·.cmdQ) (HostAction.withdrawCommands.apply { halted with rst := true, cmdQ := [0x050000000000000003] }) = some [] ∧
    shown (·.plQ) (HostAction.withdrawUnits.apply { halted with plQ := [0x78] }) = some [] := by decide

/-- R267, U5: a unit that a command in LOAD waits to take cannot be withdrawn. -/
theorem test_withdraw_refused : HostAction.withdrawUnits.apply (loading [1]) = .refused .handshakeBroken := by rfl

/-- The word placed by withFetchWord is the one the next step runs. -/
theorem test_withFetchWord : step (State.reset.withFetchWord 72 0x010000000000000000) = exec (.init 0) State.reset := by rfl

/-! ## Witnesses: a state and operands that meet each obligation's hypotheses -/

/-- An invariant of a state in LOAD of CMPB. -/
theorem inv_loading (units : List Word) : Inv (loading units) where
  busy := rfl
  fault := rfl
  cause := (by decide : Cause.noFault = .noFault ↔ false = false)
  counters _ := {
    command := .inl ⟨rfl, rfl⟩
    blocks := rfl
    index := (by decide : 0 < 1)
    second := fun h => nomatch h
    elements := (by decide : 0 ≤ 64)
    full := fun h => absurd rfl h
    units := rfl }

theorem inv_ready (cmds : List CommandWord) (units : List Word) : Inv (ready cmds units) where
  busy := rfl
  fault := rfl
  cause := (by decide : Cause.noFault = .noFault ↔ false = false)
  counters h := nomatch h

theorem inv_halted : Inv halted where
  busy := rfl
  fault := rfl
  cause := by decide
  counters h := nomatch h

theorem computeInv_lastRound : ComputeInv lastRound where
  rounds _ := ⟨rfl, rfl⟩
  add h := nomatch h

theorem computeInv_adding : ComputeInv adding where
  rounds h := nomatch h
  add _ := ⟨rfl, rfl⟩

theorem witness_EveryCommandWordIsClassified :
    (opField 0x010000000000000000).toNat = 1 ∧ (opField 0x020000000000000000).toNat = 2 ∧
    (opField 0x030000000000000000).toNat = 3 ∧ (opField 0x040000000000000000).toNat = 4 ∧
    (opField 0x050000000000000000).toNat = 5 ∧ (opField 0x060000000000000000).toNat = 6 ∧
    (opField 0x000000000000000000).toNat = 0 ∧ 7 ≤ (opField 0x070000000000000000).toNat ∧
    7 ≤ (opField 0xffffffffffffffffff).toNat := by decide

theorem witness_StepRunsTheAcceptedCommand :
    ((ready [encode (.init 0)] []).cmdReady = true ∧ decode (encode (.init 0)) = .ok (.init 0)) ∧
    ((loading []).rst = false ∧ (loading []).cmdReady = false) ∧
    ((ready [] []).rst = false ∧ (ready [] []).cmdQ = []) := by decide

theorem witness_ReservedOpcodeTakesIllegalCommand :
    (ready [0x000000000000000000] []).cmdReady = true ∧ (opField 0x000000000000000000).toNat = 0 ∧
    7 ≤ (opField 0x070000000000000000).toNat ∧ 7 ≤ (opField 0xff0000000000000000).toNat := by decide

theorem witness_HaltedAndIdleCoresStay :
    (Inv halted ∧ halted.rst = false ∧ halted.status.fault = true) ∧
    ((ready [] [1]).rst = false ∧ (ready [] [1]).phase = .idle ∧ (ready [] [1]).cmdQ = []) :=
  ⟨⟨inv_halted, rfl, rfl⟩, rfl, rfl, rfl⟩

theorem witness_ResetTakesTheResetState : ({ loading [1] with rst := true } : State).rst = true := rfl

theorem witness_commandsComplete :
    (ready [] []).cmdReady = true ∧ 16 ≤ (ready [] (List.replicate 16 1)).plQ.length ∧
    64 ≤ (ready [] (List.replicate 64 1)).plQ.length := by decide

/-- The hypotheses of HASH and DHASH at the longest message. -/
theorem witness_hashCompletes :
    (ready [] (List.replicate (2 ^ 61 - 1) 0)).cmdReady = true ∧ (0x1fffffffffffffff#64).toNat < 2 ^ 61 ∧
    (0x1fffffffffffffff#64).toNat ≤ (ready [] (List.replicate (2 ^ 61 - 1) 0)).plQ.length :=
  ⟨rfl, by decide, by rw [ready, List.length_replicate]; decide⟩

theorem witness_IllegalLengthTakesInvalidLength :
    (ready [] []).cmdReady = true ∧ (1#64).toNat ≠ 0 ∧ (63#64).toNat ≠ 64 ∧ (65#64).toNat ≠ 64 ∧ (15#64).toNat ≠ 16 ∧
    (17#64).toNat ≠ 16 := by decide

theorem witness_InvalidLengthIsRaisedExactlyByIllegalLengths : Inv (ready [] []) ∧ (ready [] []).cmdReady = true :=
  ⟨inv_ready [] [], rfl⟩

theorem witness_AFaultKeepsHAndThePayload :
    let s := ready [encode (.init 1)] [1]
    Inv s ∧ s.status.fault = false ∧ shown (·.status.fault) (step s) = some true :=
  ⟨inv_ready _ _, rfl, by decide⟩

theorem witness_RefusalsAreExactlyTheOutOfDomainCommands :
    halted.cmdReady = false ∧ 2 ^ 61 ≤ (0x2000000000000000#64).toNat := by decide

theorem witness_ShortPayloadWaitsInLoad :
    (ready [] []).cmdReady = true ∧ (Instr.hash 1).wellFormed = true ∧ (ready [] []).plQ.length < (Instr.hash 1).len.toNat ∧
    (Instr.cmpb 64).wellFormed = true ∧
    (ready [] (List.replicate 63 1)).plQ.length < (Instr.cmpb 64).len.toNat := by decide

/-- A command that completes, one that faults and one that waits. -/
theorem witness_CommandsTakeTheirPayloadFromTheFront :
    shown (·.phase) (exec (.init 0) (ready [] [])) = some .idle ∧ shown (·.phase) (exec (.init 1) (ready [] [])) = some .halt ∧
    shown (·.phase) (exec (.cmpb 64) (ready [] [1])) = some .load := by decide +kernel

theorem witness_StepIsARunOfTicks : (ready [encode (.init 0)] []).rst = false := rfl

theorem witness_StepEndsIdleHaltedOrWaiting :
    shown (·.phase) (step (ready [encode (.init 0)] [])) = some .idle ∧
    shown (·.phase) (step (ready [encode (.init 1)] [])) = some .halt ∧
    shown (·.phase) (step (loading [])) = some .load := by decide +kernel

theorem witness_TickAndStepKeepTheInvariant :
    Inv (loading [1]) ∧ shown (·.lcnt) (tick (loading [1])) = some 1 ∧ shown (·.lcnt) (step (loading [1])) = some 1 :=
  ⟨inv_loading [1], by decide, by decide +kernel⟩

theorem witness_EveryTickKeepsTheCompression :
    ComputeInv lastRound ∧ shown (·.phase) (tick lastRound) = some .add :=
  ⟨computeInv_lastRound, by decide +kernel⟩

theorem witness_HostActionsLeaveTheCoreAlone :
    (Inv (ready [] []) ∧ (ready [] []).status.busy = false ∧
      shown (·.plQ) ((HostAction.presentUnit 1).apply (ready [] [])) = some [1]) ∧
    (ComputeInv lastRound ∧ shown (·.plQ) ((HostAction.presentUnit 1).apply lastRound) = some [1]) :=
  ⟨⟨inv_ready [] [], rfl, rfl⟩, computeInv_lastRound, rfl⟩

/-- An action that answers a next state, `rst` at both levels, FAULT at both values. -/
theorem witness_PresentedWordsAndUnitsStayUntilTheTransfer :
    ((ready [1] [1]).rst = false ∧ (ready [1] [1]).status.fault = false ∧
      shown (·.cmdQ) ((HostAction.presentCommand 2).apply (ready [1] [1])) = some [1, 2]) ∧
    (halted.rst = false ∧ halted.status.fault = true) ∧ ({ ready [1] [1] with rst := true } : State).rst = true := by
  decide

/-- Each of the four ways to write H does change it in some state. -/
theorem witness_HIsWrittenInThreeWays :
    shown (fun t => decide (t.h = abcState)) (tick { State.reset with rst := true, h := abcState }) = some false ∧
    shown (fun t => decide (t.h = abcState)) (tick { ready [encode (.init 0)] [] with h := abcState }) = some false ∧
    shown (fun t => decide (t.h = abcState)) (tick { loading [] with pass := .second, lcnt := 64, h := abcState }) =
      some false ∧
    shown (fun t => decide (t.h = adding.h)) (tick adding) = some false := by decide +kernel

theorem witness_AddBackYieldsTheCompression :
    (ComputeInv adding ∧ adding.rst = false ∧ adding.status.busy = true ∧ adding.phase = .add ∧
      shown (·.phase) (tick adding) = some .idle) ∧
    (ComputeInv lastRound ∧ lastRound.rst = false ∧ lastRound.status.busy = true ∧ lastRound.phase = .round ∧
      shown (·.phase) (tick lastRound) = some .add) :=
  ⟨⟨computeInv_adding, rfl, rfl, rfl, by decide +kernel⟩, computeInv_lastRound, rfl, rfl, rfl, by decide +kernel⟩

/-- Halted on IllegalCommand. -/
def haltedIllegal : State := illegalCommand 0x07#8 0#64 State.reset

theorem inv_haltedIllegal : Inv haltedIllegal where
  busy := rfl
  fault := rfl
  cause := by decide
  counters h := nomatch h

theorem witness_StatusBitsAreAsSpecified :
    (Inv (loading []) ∧ (loading []).status.cause = .noFault) ∧
    (Inv halted ∧ halted.phase = .halt ∧ halted.status.cause = .invalidLength) ∧
    (Inv haltedIllegal ∧ haltedIllegal.phase = .halt ∧ haltedIllegal.status.cause = .illegalCommand) :=
  ⟨⟨inv_loading [], rfl⟩, ⟨inv_halted, rfl, rfl⟩, inv_haltedIllegal, rfl, rfl⟩

theorem witness_ReadySignalsFollowThePhase :
    (Inv (ready [] []) ∧ (ready [] []).cmdReady = true) ∧ (Inv (loading []) ∧ (loading []).plReady = true) :=
  ⟨⟨inv_ready [] [], rfl⟩, inv_loading [], by decide⟩

theorem witness_OutputPortShowsHInBothViews :
    halted.status.busy = false ∧ (0 : Fin 32).val = 4 * (0 : Fin 8).val + (0 : Fin 4).val ∧
    (31 : Fin 32).val = 4 * (7 : Fin 8).val + (3 : Fin 4).val := by decide

theorem witness_bitIndices : 1 ≤ 31 ∧ 0 < 32 ∧ 31 < 32 := by decide

theorem witness_EndianConversionsAreInverse : 0 < 2 ^ 64 ∧ 2 ^ 64 - 1 < 2 ^ 64 := by decide

theorem witness_BlockBufferViewsAgree : (63 : Fin 64).val = 4 * (15 : Fin 16).val + (3 : Fin 4).val := by decide

/-- "abc" at its first byte, its last, the 0x80, the first and last zero, and the first and last byte of the length. -/
theorem witness_PaddedMessageByteByByte :
    [0x61#8, 0x62#8, 0x63#8].length < 2 ^ 61 ∧ 63 < 64 * nblocks 3 ∧ 2 < 3 ∧ (3 < 4 ∧ 4 < 64 * nblocks 3 - 8) ∧
    (3 < 55 ∧ 55 < 64 * nblocks 3 - 8) ∧ 56 = 64 * nblocks 3 - 8 + 0 ∧ 63 = 64 * nblocks 3 - 8 + 7 := by decide

theorem witness_CmpbAndCmpwAgree :
    let Y : BlockBytes := Vector.replicate 64 0x61
    (ready [] (List.replicate 64 0x61)).cmdReady = true ∧ (ready [] (pack Y).toList).cmdReady = true ∧
    (List.replicate 64 0xffffff61).map unitByte = Y.toList := by decide +kernel

theorem witness_HashIsInitThenCmpbPerBlock :
    let s := ready [encode (.init 0), encode (.cmpb 64)] ((pad [0x61]).map byteUnit)
    Inv s ∧ s.cmdReady = true ∧ [0x61#8].length < 2 ^ 61 ∧
    s.cmdQ = encode (.init 0) :: List.replicate (nblocks [0x61#8].length) (encode (.cmpb 64)) ∧
    s.plQ = (pad [0x61]).map byteUnit ++ [] :=
  ⟨inv_ready _ _, rfl, by decide, rfl, by simp [ready]⟩

/-- SCHED, the first and the last round, and ADD. -/
theorem witness_MicroStepsFollowTheRoundEquations :
    let sched : State := { loading [] with lcnt := 64, rcnt := 64, phase := .sched }
    (sched.rst = false ∧ sched.status.busy = true ∧ sched.phase = .sched) ∧
    (lastRound.rst = false ∧ lastRound.status.busy = true ∧ lastRound.phase = .round ∧ lastRound.t.val = 63) ∧
    ((schedStep sched).rst = false ∧ (schedStep sched).status.busy = true ∧ (schedStep sched).phase = .round ∧
      (schedStep sched).t.val < 63) ∧
    (adding.rst = false ∧ adding.status.busy = true ∧ adding.phase = .add) :=
  ⟨⟨rfl, rfl, rfl⟩, ⟨rfl, rfl, rfl, rfl⟩, ⟨rfl, rfl, rfl, by decide⟩, rfl, rfl, rfl⟩

/-- A CMPB that waits for payload. -/
theorem witness_ResultsDependOnOperandsOnly :
    let s := ready [] [1, 2]
    let s' : State := { s with lcnt := 33, pass := .second, t := 5, cmdQ := [0] }
    Inv s ∧ Inv s' ∧ s.cmdReady = true ∧ s'.cmdReady = true ∧ (Instr.cmpb 64).wellFormed = true ∧ s.plQ = s'.plQ ∧
    s.h = s'.h :=
  ⟨inv_ready _ _, ⟨rfl, rfl, by decide, fun h => nomatch h⟩, rfl, rfl, rfl, rfl, rfl⟩

/-- A HASH that completes, from two different H, and a CMPB that completes. -/
theorem witness_ResultsDependOnOperandsOnly_completing :
    let s := ready [] (List.replicate 64 1)
    let s' : State := { s with h := abcState, lcnt := 33, pass := .second, t := 5, rcnt := 7 }
    let s'' : State := { s with lcnt := 33, pass := .second, t := 5, rcnt := 7 }
    (Inv s ∧ Inv s' ∧ s.cmdReady = true ∧ s'.cmdReady = true ∧ (Instr.hash 2).wellFormed = true ∧ s.plQ = s'.plQ ∧
      ¬ ((Instr.hash 2).opcode.toNat = 2 ∨ (Instr.hash 2).opcode.toNat = 3)) ∧
    (Inv s'' ∧ s''.cmdReady = true ∧ (Instr.cmpb 64).wellFormed = true ∧ s.plQ = s''.plQ ∧ s.h = s''.h) :=
  ⟨⟨inv_ready _ _, ⟨rfl, rfl, by decide, fun h => nomatch h⟩, rfl, rfl, by decide, rfl, by decide⟩,
    ⟨rfl, rfl, by decide, fun h => nomatch h⟩, rfl, rfl, rfl, rfl⟩

theorem witness_CoresAreIndependent :
    let cs : Cores 2 := #v[ready [encode (.init 0)] [], ready [encode (.init 1)] []]
    (0 : Fin 2) ≠ 1 ∧
    (∃ c1, stepCore 0 cs = .next c1 ∧ ∃ c2, stepCore 1 c1 = .next c2) :=
  ⟨by decide, _, rfl, _, rfl⟩

end Sys2Proof.Tests
end

/-! SUPPORT and PROOFS. The two levels of the model (00_scope.md R9): while no command word can be taken, a tick is a micro-step,
so that a run of micro-steps is a run of ticks. -/

namespace Sys2Proof.Machine

/-- The next rising edge takes nothing from the command channel: `rst` is 0, and `cmd_ready` is 0 or no word is presented (R81,
R260). -/
structure NoTransfer (s : State) : Prop where
  rst : s.rst = false
  channel : s.cmdReady = false ∨ s.cmdQ = []

theorem NoTransfer.tick_eq {s : State} (h : NoTransfer s) : tick s = .next (microStep s) :=
  tick_nothing h.rst (fetch_nothing h.channel)

/-- BUSY falls only where the command leaves the sequencer (R198): a micro-step that ends with a command in progress keeps
STATUS. -/
theorem microStep_status_of_running (s : State) (h : (microStep s).running = true) :
    (microStep s).status = s.status := by
  cases hp : s.phase with
  | idle => simp [microStep, hp]
  | halt => simp [microStep, hp]
  | load =>
    by_cases hl : s.lcnt < blockElements s.opr
    · rw [microStep_load s hp hl]
      obtain ⟨-, hstatus, -⟩ := loadElement_frame s
      exact hstatus
    · rw [microStep_endLoad s hp hl, endLoad_eq]
  | sched => rw [microStep_sched s hp, schedStep_status]
  | round =>
    rw [microStep_round s hp]
    obtain ⟨-, hstatus, -⟩ := roundMicro_frame s
    exact hstatus
  | add =>
    rw [microStep_add s hp] at h ⊢
    by_cases hb : s.bidx + 1 < s.nblk
    · simp [addStep_more s hb]
    · cases hd : secondPassDue s with
      | true => simp [addStep_secondPass s hb hd]
      | false => simp [addStep_last s hb hd, running_iff] at h

/-- While the command is in progress, no micro-step makes the core take a command word. -/
theorem NoTransfer.microStep {s : State} (h : NoTransfer s) (hr : (microStep s).running = true) :
    NoTransfer (microStep s) := by
  obtain ⟨hq, hrst, -⟩ := microStep_frame s
  refine ⟨hrst.trans h.rst, ?_⟩
  have hready : (Machine.microStep s).cmdReady = s.cmdReady := by
    simp [State.cmdReady, hrst, microStep_status_of_running s hr]
  rw [hready, hq]
  exact h.channel

theorem ticks_succ_of_next {s t : State} (h : tick s = .next t) (n : Nat) : ticks (n + 1) s = ticks n t := by
  simp [ticks, h]

theorem ticks_one (s : State) : ticks 1 s = tick s := by
  cases h : tick s <;> simp [ticks, h]

/-- Induction along the run of a command: what holds where no micro-step is enabled, and of a state if it holds after its enabled
micro-step, holds of every state. Every run ends (R277). -/
theorem run_induction {P : State → Prop} (stopped : ∀ s, s.enabled = false → P s)
    (enabled : ∀ s, s.enabled = true → P (microStep s) → P s) (s : State) : P s := by
  cases he : s.enabled with
  | false => exact stopped s he
  | true => exact enabled s he (run_induction stopped enabled (microStep s))
termination_by microsLeft s
decreasing_by
  have := microsLeft_microStep s he
  omega

/-- The run of a command in progress is a run of ticks (R195, R200). -/
theorem settle_eq_ticks (s : State) (h : s.running = true → NoTransfer s) : ∃ n, ticks n s = .next (settle s) := by
  induction s using run_induction with
  | stopped s he => exact ⟨0, by rw [settle_of_not_enabled s he, ticks]⟩
  | enabled s he ih =>
    have hs := h ((enabled_iff s).1 he).1
    obtain ⟨n, hn⟩ := ih hs.microStep
    exact ⟨n + 1, by rw [ticks_succ_of_next hs.tick_eq, hn, settle_microStep s he]⟩

/-- A command's first transition leaves BUSY at 1 and `rst` as it was, unless it has ended the command already (R81, R195). -/
theorem start_noTransfer {i : Instr} {s t : State} (h : start i s = .next t) (hr : t.running = true) : NoTransfer t := by
  obtain ⟨hready, hcases⟩ := start_next h
  obtain ⟨hrst, -⟩ := (cmdReady_iff s).1 hready
  rcases hcases with rfl | ⟨-, rfl⟩ | ⟨-, rfl⟩ | ⟨-, rfl⟩ | ⟨-, rfl⟩
  · simp [running_iff] at hr
  · simp [running_iff] at hr
  all_goals exact ⟨hrst, .inl (by simp [State.cmdReady])⟩

/-- Settles O21: the first tick takes what the step takes from the command channel, and the ticks after it are the micro-steps of
the step's run. -/
theorem stepIsARunOfTicks : Obligations.StepIsARunOfTicks := by
  intro s hr
  rcases fetch_cases s with ⟨hf, hc⟩ | ⟨cw, rest, -, -, ⟨i, -, hf⟩ | ⟨op, -, hf⟩⟩
  · rw [step_nothing hr hf]
    exact settle_eq_ticks s fun _ => ⟨hr, hc⟩
  · rw [step_command hr hf, exec_eq_settled_start]
    have htick := tick_command hr hf
    cases hs : start i { s with cmdQ := rest } with
    | next t =>
      obtain ⟨n, hn⟩ := settle_eq_ticks t (start_noTransfer hs)
      exact ⟨n + 1, by rw [ticks_succ_of_next (htick.trans hs), hn, settled_next]⟩
    | fault f => cases f
    | refused r => exact ⟨1, by rw [ticks_one, htick, hs, settled_refused]⟩
  · exact ⟨1, by rw [ticks_one, tick_reserved hr hf, step_reserved hr hf]⟩

end Sys2Proof.Machine

/-! SUPPORT and PROOFS. Two runs of one command side by side (R202): a relation between their states that leaves out what a run
writes before it reads it, and that every micro-step keeps. -/

namespace Sys2Proof.Machine

/-- Two block buffers agree on their first n bytes. -/
def AgreeBelow (n : Nat) (b b' : BlockBytes) : Prop := ∀ (i : Nat) (hi : i < 64), i < n → b[i] = b'[i]

theorem AgreeBelow.zero (b b' : BlockBytes) : AgreeBelow 0 b b' := fun _ _ h => absurd h (by omega)

theorem AgreeBelow.eq {n : Nat} {b b' : BlockBytes} (h : AgreeBelow n b b') (hn : 64 ≤ n) : b = b' :=
  Vector.ext fun i hi => h i hi (by omega)

theorem AgreeBelow.memWrite1 {n : Nat} {b b' : BlockBytes} (h : AgreeBelow n b b') (v : Byte) :
    AgreeBelow (n + 1) (memWrite1 b n v) (memWrite1 b' n v) := by
  intro i hi hin
  rw [memWrite1_get _ _ _ _ hi, memWrite1_get _ _ _ _ hi]
  split
  · rfl
  · exact h i hi (by omega)

theorem AgreeBelow.memWrite4 {j : Nat} {b b' : BlockBytes} (h : AgreeBelow (4 * j) b b') (v : Word) :
    AgreeBelow (4 * (j + 1)) (memWrite4 b j v) (memWrite4 b' j v) := by
  intro i hi hij
  rw [memWrite4_get _ _ _ _ hi, memWrite4_get _ _ _ _ hi]
  split
  · rfl
  · exact h i hi (by omega)

/-- The bytes of the block buffer that n elements of an opcode's LOAD phase write: four a word (R51, R196). -/
def elementBytes (op : Opcode) (n : Nat) : Nat := if wordUnit op then 4 * n else n

theorem elementBytes_zero (op : Opcode) : elementBytes op 0 = 0 := by simp [elementBytes]

/-- A full block is all of the buffer. -/
theorem elementBytes_full {op : Opcode} {n : Nat} (h : ¬ n < blockElements op) : 64 ≤ elementBytes op n := by
  cases hw : wordUnit op <;> simp [blockElements, elementBytes, hw] at h ⊢ <;> omega

/-- A generated byte behind the elements written so far: there is none in a word command (R196). -/
theorem AgreeBelow.nextByte {op : Opcode} {n : Nat} {b b' : BlockBytes} (h : AgreeBelow (elementBytes op n) b b')
    (hw : wordUnit op = false) (v : Byte) :
    AgreeBelow (elementBytes op (n + 1)) (Machine.memWrite1 b n v) (Machine.memWrite1 b' n v) := by
  simp only [elementBytes, hw] at h ⊢
  exact h.memWrite1 v

/-- A payload unit, a word or a byte, behind the elements written so far (R56). -/
theorem AgreeBelow.nextUnit {op : Opcode} {n : Nat} {b b' : BlockBytes} (h : AgreeBelow (elementBytes op n) b b')
    (u : Word) :
    AgreeBelow (elementBytes op (n + 1))
      (if wordUnit op then Machine.memWrite4 b n u else Machine.memWrite1 b n (unitByte u))
      (if wordUnit op then Machine.memWrite4 b' n u else Machine.memWrite1 b' n (unitByte u)) := by
  cases hw : wordUnit op with
  | false => exact h.nextByte hw (unitByte u)
  | true =>
    simp only [elementBytes, hw] at h ⊢
    exact h.memWrite4 u

/-- The two states show the same outcome of a command (R200, R202), with its RCNT. -/
structure SameOutcome (s s' : State) : Prop where
  h : s.h = s'.h
  status : s.status = s'.status
  phase : s.phase = s'.phase
  rcnt : s.rcnt = s'.rcnt
  plQ : s.plQ = s'.plQ

/-- Two states at the same point of the same command: the outcome so far, the counters and the latches are the same, and of the
block buffer, T, W and a..h as much as the command has yet to read. A word command has one pass. -/
structure SameRun (s s' : State) : Prop extends SameOutcome s s' where
  pass : s.pass = s'.pass
  bidx : s.bidx = s'.bidx
  nblk : s.nblk = s'.nblk
  lcnt : s.lcnt = s'.lcnt
  opr : s.opr = s'.opr
  mlen : s.mlen = s'.mlen
  words : wordUnit s.opr = true → s.pass = .first
  load : s.phase = .load → AgreeBelow (elementBytes s.opr s.lcnt) s.blkb s'.blkb
  sched : s.phase = .sched → s.blkb = s'.blkb
  round : s.phase = .round → s.t = s'.t ∧ s.w = s'.w ∧ s.work = s'.work
  add : s.phase = .add → s.work = s'.work

/-- In its first pass a word command takes every element from the payload channel (R196). -/
theorem wordUnit_of_generated {s : State} {b : Byte} (hw : wordUnit s.opr = true → s.pass = .first)
    (hsrc : elementSource s = .generated b) : wordUnit s.opr = false := by
  rw [Bool.eq_false_iff]
  intro hu
  have ho : s.opr = 0x02#8 ∨ s.opr = 0x03#8 ∨ s.opr = 0x04#8 := by
    simp only [wordUnit, Bool.or_eq_true, beq_iff_eq] at hu
    exact .inr hu
  simp [elementSource, hw hu, ho] at hsrc

theorem SameRun.elementSource {s s' : State} (r : SameRun s s') : elementSource s = elementSource s' :=
  elementSource_congr r.pass r.h r.opr r.bidx r.mlen r.lcnt

/-- Both cores wait for the host or neither does. -/
theorem SameRun.starved {s s' : State} (r : SameRun s s') : starved s = starved s' := by
  simp [Machine.starved, needsPayload, r.phase, r.lcnt, r.opr, r.elementSource, r.plQ]

theorem SameRun.enabled {s s' : State} (r : SameRun s s') : s.enabled = s'.enabled := by
  simp [State.enabled, State.running, r.phase, r.starved]

/-- A LOAD that begins, in either pass, has nothing of the transients to read yet. -/
theorem SameOutcome.enterLoad {s s' : State} (r : SameOutcome s s') (p : Pass) (n N : Nat) (ho : s.opr = s'.opr)
    (hm : s.mlen = s'.mlen) (hw : wordUnit s.opr = true → p = .first) :
    SameRun (enterLoad p n N s) (enterLoad p n N s') where
  h := r.h
  status := r.status
  phase := rfl
  rcnt := r.rcnt
  plQ := r.plQ
  pass := rfl
  bidx := rfl
  nblk := rfl
  lcnt := rfl
  opr := ho
  mlen := hm
  words := hw
  load _ := (elementBytes_zero s.opr).symm ▸ AgreeBelow.zero s.blkb s'.blkb
  sched h := nomatch h
  round h := nomatch h
  add h := nomatch h

/-- The same element is written to both buffers, behind the bytes on which they agree (R51, R196). -/
theorem SameRun.loadElement {s s' : State} (r : SameRun s s') (hp : s.phase = .load)
    (hl : s.lcnt < blockElements s.opr) (hs : Machine.starved s = false) :
    SameRun (loadElement s) (loadElement s') := by
  have hb := r.load hp
  have hp' : s'.phase = .load := r.phase ▸ hp
  have hl' : s'.lcnt < blockElements s'.opr := by rw [← r.lcnt, ← r.opr]; exact hl
  rcases loadElement_cases s hp hl hs with ⟨b, hsrc, e⟩ | ⟨u, rest, hsrc, hq, e⟩ <;>
    rcases loadElement_cases s' hp' hl' (r.starved ▸ hs) with ⟨b', hsrc', e'⟩ | ⟨u', rest', hsrc', hq', e'⟩
  · obtain rfl : b = b' := by simpa [hsrc, hsrc'] using r.elementSource
    rw [e, e']
    exact { r with
      lcnt := congrArg (· + 1) r.lcnt
      load := fun _ => by simpa only [← r.lcnt] using hb.nextByte (wordUnit_of_generated r.words hsrc) b
      sched := fun h => nomatch hp.symm.trans h }
  · exact absurd (hsrc.symm.trans (r.elementSource.trans hsrc')) nofun
  · exact absurd (hsrc.symm.trans (r.elementSource.trans hsrc')) nofun
  · obtain ⟨rfl, rfl⟩ : u = u' ∧ rest = rest' := by simpa [hq, hq'] using r.plQ
    rw [e, e']
    exact { r with
      plQ := rfl
      rcnt := congrArg (· + 1) r.rcnt
      lcnt := congrArg (· + 1) r.lcnt
      load := fun _ => by simpa only [← r.lcnt, ← r.opr] using hb.nextUnit u
      sched := fun h => nomatch hp.symm.trans h }

/-- A full buffer is the same in both cores when it goes to SCHED, and H is IV or what it was (R195). -/
theorem SameRun.endLoad {s s' : State} (r : SameRun s s') (hp : s.phase = .load) (hl : ¬ s.lcnt < blockElements s.opr) :
    SameRun (endLoad s) (endLoad s') := by
  rw [endLoad_eq, endLoad_eq]
  exact { r with
    h := by simp only [r.pass, r.h]
    phase := rfl
    load := nofun
    sched := fun _ => (r.load hp).eq (elementBytes_full hl)
    round := nofun
    add := nofun }

/-- SCHED computes W, a..h and T from the buffer and H alone (R195). -/
theorem SameRun.schedStep {s s' : State} (r : SameRun s s') (hp : s.phase = .sched) :
    SameRun (schedStep s) (schedStep s') :=
  { r with
    phase := rfl
    load := nofun
    sched := nofun
    round := fun _ => ⟨rfl, by simp [State.blkw, r.sched hp], congrArg workOf r.h⟩
    add := nofun }

/-- A round reads T, W and a..h alone (R145). -/
theorem SameRun.roundMicro {s s' : State} (r : SameRun s s') (hp : s.phase = .round) :
    SameRun (roundMicro s) (roundMicro s') := by
  obtain ⟨ht, hw, hwork⟩ := r.round hp
  have hstep : roundStep s.work K[s.t] s.w[s.t] = roundStep s'.work K[s'.t] s'.w[s'.t] := by
    simp only [ht, hw, hwork]
  by_cases hlt : s.t.val < 63
  · rw [roundMicro_lt s hlt, roundMicro_lt s' (ht ▸ hlt)]
    exact { r with
      load := fun h => nomatch hp.symm.trans h
      sched := fun h => nomatch hp.symm.trans h
      round := fun _ => ⟨congrArg (· + 1) ht, hw, hstep⟩
      add := fun _ => hstep }
  · rw [roundMicro_last s hlt, roundMicro_last s' (ht ▸ hlt)]
    exact { r with
      phase := rfl
      load := nofun
      sched := nofun
      round := nofun
      add := fun _ => hstep }

/-- The add-back reads H and a..h alone; then the next block, the second pass or the end (R195). -/
theorem SameRun.addStep {s s' : State} (r : SameRun s s') (hp : s.phase = .add) : SameRun (addStep s) (addStep s') := by
  have hadd : SameOutcome (addBackH s) (addBackH s') := { r with h := by simp [r.h, r.add hp] }
  have hdue' : secondPassDue s' = secondPassDue s := by simp [secondPassDue, r.opr, r.pass]
  by_cases hb : s.bidx + 1 < s.nblk
  · rw [addStep_more s hb, addStep_more s' (by rw [← r.bidx, ← r.nblk]; exact hb), ← r.pass, ← r.bidx, ← r.nblk]
    exact hadd.enterLoad _ _ _ r.opr r.mlen r.words
  · have hb' : ¬ s'.bidx + 1 < s'.nblk := by rw [← r.bidx, ← r.nblk]; exact hb
    cases hd : secondPassDue s with
    | true =>
      rw [addStep_secondPass s hb hd, addStep_secondPass s' hb' (hdue'.trans hd)]
      have hop : s.opr = 0x06#8 := by simp [secondPassDue] at hd; exact hd.1
      exact hadd.enterLoad _ _ _ r.opr r.mlen (by simp [hop, wordUnit])
    | false =>
      rw [addStep_last s hb hd, addStep_last s' hb' (hdue'.trans hd)]
      exact { r with
        h := hadd.h
        status := congrArg Status.completed r.status
        phase := rfl
        load := nofun
        sched := nofun
        round := nofun
        add := nofun }

/-- Every enabled micro-step takes two states of the same run to two states of the same run, row by row of R195. -/
theorem SameRun.microStep {s s' : State} (r : SameRun s s') (he : s.enabled = true) :
    SameRun (microStep s) (microStep s') := by
  obtain ⟨hr, hs⟩ := (enabled_iff s).1 he
  cases hp : s.phase with
  | idle => simp [running_iff, hp] at hr
  | halt => simp [running_iff, hp] at hr
  | load =>
    have hp' := r.phase.symm.trans hp
    by_cases hl : s.lcnt < blockElements s.opr
    · rw [microStep_load s hp hl, microStep_load s' hp' (by rw [← r.lcnt, ← r.opr]; exact hl)]
      exact r.loadElement hp hl hs
    · rw [microStep_endLoad s hp hl, microStep_endLoad s' hp' (by rw [← r.lcnt, ← r.opr]; exact hl)]
      exact r.endLoad hp hl
  | sched =>
    rw [microStep_sched s hp, microStep_sched s' (r.phase.symm.trans hp)]
    exact r.schedStep hp
  | round =>
    rw [microStep_round s hp, microStep_round s' (r.phase.symm.trans hp)]
    exact r.roundMicro hp
  | add =>
    rw [microStep_add s hp, microStep_add s' (r.phase.symm.trans hp)]
    exact r.addStep hp

/-- The two runs end together, with the same outcome (R202). -/
theorem SameRun.settle {s s' : State} (r : SameRun s s') : SameRun (settle s) (settle s') := by
  induction s using run_induction generalizing s' with
  | stopped s he => rwa [settle_of_not_enabled s he, settle_of_not_enabled s' (r.enabled ▸ he)]
  | enabled s he ih =>
    rw [settle_microStep s he, settle_microStep s' (r.enabled ▸ he)]
    exact ih (r.microStep he)

/-- Where `cmd_ready` is 1, the invariant leaves one STATUS and one PHASE (R31, R32, R33, R95). -/
theorem Inv.idle_of_ready {s : State} (hi : Inv s) (hr : s.cmdReady = true) :
    s.status = ⟨false, false, .noFault⟩ ∧ s.phase = .idle := by
  obtain ⟨-, hbusy, hfault⟩ := (cmdReady_iff s).1 hr
  have hcause := hi.cause.2 hfault
  have hrun : s.running = false := hi.busy.symm.trans hbusy
  have hhalt : s.phase ≠ .halt := by simpa [hfault] using hi.fault
  constructor
  · calc s.status = ⟨s.status.busy, s.status.fault, s.status.cause⟩ := rfl
      _ = ⟨false, false, .noFault⟩ := by rw [hbusy, hfault, hcause]
  · by_contra hidle
    simp [(running_iff s).2 ⟨hidle, hhalt⟩] at hrun

/-- The first transition of a command with a legal LEN, from every state in which the core is ready: INIT's completion, or the
LOAD of block 0, by CMPB and CMPW from the H that is there, by the others from IV (R83, R195 IDLE rows). -/
theorem start_wellFormed {i : Instr} (hw : i.wellFormed = true) :
    (∀ s, s.cmdReady = true → start i s = .next (complete (loadIV (accept i.opcode i.len s)))) ∨
    ((i.opcode.toNat = 2 ∨ i.opcode.toNat = 3) ∧
      ∀ s, s.cmdReady = true → start i s = .next (enterLoad .first 0 1 (accept i.opcode i.len s))) ∨
    (∃ N, ∀ s, s.cmdReady = true → start i s = .next (enterLoad .first 0 N (loadIV (accept i.opcode i.len s)))) := by
  cases i with
  | init l =>
    obtain rfl : l = 0#64 := BitVec.eq_of_toNat_eq (by simpa [Instr.wellFormed] using hw)
    exact .inl fun s hr => by simp [start, beginInit, whenReady_ready s _ hr, Instr.opcode, Instr.len]
  | cmpb l =>
    obtain rfl : l = 64#64 := BitVec.eq_of_toNat_eq (by simpa [Instr.wellFormed] using hw)
    exact .inr (.inl ⟨.inl rfl, fun s hr => by simp [start, beginCmpb, whenReady_ready s _ hr, Instr.opcode, Instr.len]⟩)
  | cmpw l =>
    obtain rfl : l = 16#64 := BitVec.eq_of_toNat_eq (by simpa [Instr.wellFormed] using hw)
    exact .inr (.inl ⟨.inr rfl, fun s hr => by simp [start, beginCmpw, whenReady_ready s _ hr, Instr.opcode, Instr.len]⟩)
  | midstate l =>
    obtain rfl : l = 16#64 := BitVec.eq_of_toNat_eq (by simpa [Instr.wellFormed] using hw)
    exact .inr (.inr ⟨1, fun s hr => by simp [start, beginMidstate, whenReady_ready s _ hr, Instr.opcode, Instr.len]⟩)
  | hash l =>
    have hl : l.toNat < Config.messageBound := of_decide_eq_true hw
    exact .inr (.inr ⟨nblocks l.toNat, fun s hr => by
      simp [start, beginHash, whenReady_ready s _ hr, hl, Instr.opcode, Instr.len]⟩)
  | dhash l =>
    have hl : l.toNat < Config.messageBound := of_decide_eq_true hw
    exact .inr (.inr ⟨nblocks l.toNat, fun s hr => by
      simp [start, beginDhash, whenReady_ready s _ hr, hl, Instr.opcode, Instr.len]⟩)

/-- Settles O46: the first transitions from the two states are those of the same run (INIT has ended with its own), and the same
run has the same outcome. -/
theorem resultsDependOnOperandsOnly : Obligations.ResultsDependOnOperandsOnly := by
  intro s s' i hi hi' hr hr' hw hq hh
  obtain ⟨hst, hph⟩ := hi.idle_of_ready hr
  obtain ⟨hst', hph'⟩ := hi'.idle_of_ready hr'
  have hstatus : s.status.accepted = s'.status.accepted := by rw [hst, hst']
  have hphase : s.phase = s'.phase := hph.trans hph'.symm
  suffices h : ∃ t t', start i s = .next t ∧ start i s' = .next t' ∧ SameOutcome (settle t) (settle t') by
    obtain ⟨t, t', ht, ht', o⟩ := h
    exact ⟨settle t, settle t', by rw [exec_eq_settled_start, ht, settled_next],
      by rw [exec_eq_settled_start, ht', settled_next], o.h, o.status, o.phase, o.rcnt, o.plQ⟩
  rcases start_wellFormed hw with hs | ⟨hop, hs⟩ | ⟨N, hs⟩ <;> refine ⟨_, _, hs s hr, hs s' hr', ?_⟩
  · rw [settle_complete, settle_complete]
    exact ⟨rfl, congrArg Status.completed hstatus, rfl, rfl, hq⟩
  · have o : SameOutcome (accept i.opcode i.len s) (accept i.opcode i.len s') := ⟨hh hop, hstatus, hphase, rfl, hq⟩
    exact (o.enterLoad .first 0 1 rfl rfl fun _ => rfl).settle.toSameOutcome
  · have o : SameOutcome (loadIV (accept i.opcode i.len s)) (loadIV (accept i.opcode i.len s')) :=
      ⟨rfl, hstatus, hphase, rfl, hq⟩
    exact (o.enterLoad .first 0 N rfl rfl fun _ => rfl).settle.toSameOutcome

end Sys2Proof.Machine

/-! SUPPORT and PROOFS. The invariant of the flags and counters (R30 to R33, R197): what each row of R195 does to it, and that
every tick and every step keep it. -/

namespace Sys2Proof.Machine

/-! The counters of a command in progress, row by row of R195. -/

/-- A block command takes all its payload as block elements, or pads a message: the two kinds of R83, R196. -/
theorem blockCommand.payloadOnly_iff {op : Opcode} {len : Len} (h : blockCommand op len) :
    (op = 0x02#8 ∨ op = 0x03#8 ∨ op = 0x04#8) ↔ hashCommand op = false := by
  rcases h with ⟨rfl, -⟩ | ⟨rfl, -⟩ | ⟨rfl, -⟩ | ⟨rfl | rfl, -⟩ <;> decide

/-- The commands that pad are byte commands (R53). -/
theorem blockElements_of_hashCommand {op : Opcode} (h : hashCommand op = true) : blockElements op = 64 := by
  have hop : op = 0x05#8 ∨ op = 0x06#8 := by simpa [hashCommand] using h
  rcases hop with rfl | rfl <;> rfl

/-- An element that the core makes itself takes no unit (R196, R197). -/
theorem CountersOk.rcnt_of_generated {s : State} {b : Byte} (h : CountersOk s)
    (hsrc : elementSource s = .generated b) : s.rcnt = unitsTaken { s with lcnt := s.lcnt + 1 } := by
  rw [h.units]
  cases hpass : s.pass with
  | second => simp [unitsTaken, hpass]
  | first =>
    cases hhash : hashCommand s.opr with
    | false => simp [elementSource, hpass, h.command.payloadOnly_iff.2 hhash] at hsrc
    | true =>
      have hpad : s.mlen.toNat ≤ 64 * s.bidx + s.lcnt := by
        by_contra hmsg
        simp [elementSource, hpass, h.command.payloadOnly_iff, hhash, Nat.not_le.1 hmsg] at hsrc
      simp only [unitsTaken, hpass, hhash, if_true]
      omega

/-- An element from the payload channel takes one unit (R196, R197). -/
theorem CountersOk.rcnt_succ_of_payload {s : State} (h : CountersOk s) (hsrc : elementSource s = .payload) :
    s.rcnt + 1 = unitsTaken { s with lcnt := s.lcnt + 1 } := by
  rw [h.units]
  cases hpass : s.pass with
  | second => simp [elementSource, hpass] at hsrc
  | first =>
    cases hhash : hashCommand s.opr with
    | false => simp [unitsTaken, hpass, hhash]
    | true =>
      have hmsg : 64 * s.bidx + s.lcnt < s.mlen.toNat := by
        simpa [elementSource, hpass, h.command.payloadOnly_iff, hhash] using hsrc
      simp only [unitsTaken, hpass, hhash, if_true]
      omega

theorem CountersOk.loadElement {s : State} (h : CountersOk s) (hp : s.phase = .load)
    (hl : s.lcnt < blockElements s.opr) (hs : starved s = false) : CountersOk (loadElement s) := by
  rcases loadElement_cases s hp hl hs with ⟨b, hsrc, e⟩ | ⟨u, rest, hsrc, -, e⟩ <;> rw [e]
  · exact { h with elements := hl, full := absurd hp, units := h.rcnt_of_generated hsrc }
  · exact { h with elements := hl, full := absurd hp, units := h.rcnt_succ_of_payload hsrc }

theorem CountersOk.endLoad {s : State} (h : CountersOk s) (hl : ¬ s.lcnt < blockElements s.opr) :
    CountersOk (endLoad s) := by
  rw [endLoad_eq]
  exact { h with full := fun _ => Nat.le_antisymm h.elements (Nat.le_of_not_lt hl) }

theorem CountersOk.schedStep {s : State} (h : CountersOk s) (hp : s.phase = .sched) : CountersOk (schedStep s) :=
  { h with full := fun _ => h.full (by simp [hp]) }

theorem CountersOk.roundMicro {s : State} (h : CountersOk s) (hp : s.phase = .round) : CountersOk (roundMicro s) := by
  have hfull : s.lcnt = blockElements s.opr := h.full (by simp [hp])
  by_cases hlt : s.t.val < 63
  · rw [roundMicro_lt s hlt]; exact { h with full := fun _ => hfull }
  · rw [roundMicro_last s hlt]; exact { h with full := fun _ => hfull }

/-- Only pass 0 of HASH and DHASH has more than one block (R30). -/
theorem CountersOk.more_blocks {s : State} (h : CountersOk s) (hb : s.bidx + 1 < s.nblk) :
    s.pass = .first ∧ hashCommand s.opr = true := by
  have hblocks := h.blocks
  cases hpass : s.pass with
  | second => simp [passBlocks, hpass] at hblocks; omega
  | first =>
    cases hhash : hashCommand s.opr with
    | false => simp [passBlocks, hpass, hhash] at hblocks; omega
    | true => exact ⟨rfl, rfl⟩

/-- After a full block of pass 0 of HASH or DHASH, RCNT is all of the message up to that block's end (R197). -/
theorem CountersOk.rcnt_fullBlock {s : State} (h : CountersOk s) (hp : s.phase ≠ .load) (hpass : s.pass = .first)
    (hhash : hashCommand s.opr = true) : s.rcnt = min s.mlen.toNat (64 * (s.bidx + 1)) := by
  rw [h.units, Nat.mul_add_one]
  simp [unitsTaken, hpass, hhash, h.full hp, blockElements_of_hashCommand hhash]

theorem CountersOk.nextBlock {s : State} (h : CountersOk s) (hp : s.phase = .add) (hb : s.bidx + 1 < s.nblk) :
    CountersOk (enterLoad s.pass (s.bidx + 1) s.nblk (addBackH s)) := by
  obtain ⟨hpass, hhash⟩ := h.more_blocks hb
  exact { h with
    index := hb
    elements := Nat.zero_le _
    full := absurd rfl
    units := by
      rw [enterLoad_rcnt, addBackH_rcnt, h.rcnt_fullBlock (by simp [hp]) hpass hhash]
      simp [unitsTaken, hpass, hhash] }

/-- Pass 1 of DHASH begins with all of the message taken: the blocks of pass 0 hold it (R182, R197). -/
theorem CountersOk.secondPass {s : State} (h : CountersOk s) (hp : s.phase = .add) (hb : ¬ s.bidx + 1 < s.nblk)
    (hd : secondPassDue s = true) : CountersOk (enterLoad .second 0 1 (addBackH s)) := by
  obtain ⟨hop, hpass⟩ : s.opr = 0x06#8 ∧ s.pass = .first := by simpa [secondPassDue] using hd
  have hhash : hashCommand s.opr = true := by simp [hashCommand, hop]
  have hblocks : s.nblk = nblocks s.mlen.toNat := by simpa [passBlocks, hpass, hhash] using h.blocks
  exact {
    command := h.command
    blocks := rfl
    index := Nat.one_pos
    second := fun _ => hop
    elements := Nat.zero_le _
    full := absurd rfl
    units := by
      rw [enterLoad_rcnt, addBackH_rcnt, h.rcnt_fullBlock (by simp [hp]) hpass hhash]
      simp only [unitsTaken, enterLoad_pass, enterLoad_mlen, addBackH_mlen]
      unfold nblocks at hblocks
      omega }

/-- A micro-step that does not end the command keeps its counters as R30 and R197 say. -/
theorem CountersOk.microStep {s : State} (h : CountersOk s) (he : s.enabled = true)
    (hr : (microStep s).running = true) : CountersOk (microStep s) := by
  obtain ⟨hrun, hs⟩ := (enabled_iff s).1 he
  cases hp : s.phase with
  | idle => simp [running_iff, hp] at hrun
  | halt => simp [running_iff, hp] at hrun
  | load =>
    by_cases hl : s.lcnt < blockElements s.opr
    · rw [microStep_load s hp hl]; exact h.loadElement hp hl hs
    · rw [microStep_endLoad s hp hl]; exact h.endLoad hl
  | sched => rw [microStep_sched s hp]; exact h.schedStep hp
  | round => rw [microStep_round s hp]; exact h.roundMicro hp
  | add =>
    rw [microStep_add s hp] at hr ⊢
    by_cases hb : s.bidx + 1 < s.nblk
    · rw [addStep_more s hb]; exact h.nextBlock hp hb
    · cases hd : secondPassDue s with
      | true => rw [addStep_secondPass s hb hd]; exact h.secondPass hp hb hd
      | false => simp [addStep_last s hb hd, running_iff] at hr

/-- The LOAD of block 0 begins with the counters that R30 and R197 give it. -/
theorem countersOk_firstBlock {s : State} {N : Nat} (hcmd : blockCommand s.opr s.mlen)
    (hN : N = if hashCommand s.opr then nblocks s.mlen.toNat else 1) (h0 : s.rcnt = 0) :
    CountersOk (enterLoad .first 0 N s) where
  command := hcmd
  blocks := hN
  index := by
    simp only [enterLoad_bidx, enterLoad_nblk, hN, nblocks]
    split <;> omega
  second := nofun
  elements := Nat.zero_le _
  full := absurd rfl
  units := by simp [unitsTaken, h0]

/-! The flags: the ways a state comes to have the invariant. -/

/-- A state with a command in progress, no fault and good counters. -/
theorem Inv.of_running {s : State} (hr : s.running = true) (hst : s.status = ⟨true, false, .noFault⟩)
    (hc : CountersOk s) : Inv s where
  busy := by rw [hst, hr]
  fault := by
    obtain ⟨-, hhalt⟩ := (running_iff s).1 hr
    simp [hst, hhalt]
  cause := by simp [hst]
  counters _ := hc

/-- While a command is in progress no fault is latched (R31, R32, R33). -/
theorem Inv.status_of_running {s : State} (hi : Inv s) (hr : s.running = true) :
    s.status = ⟨true, false, .noFault⟩ := by
  obtain ⟨-, hhalt⟩ := (running_iff s).1 hr
  have hbusy : s.status.busy = true := hi.busy.trans hr
  have hfault : s.status.fault = false := hi.fault.trans (by simpa using hhalt)
  calc s.status = ⟨s.status.busy, s.status.fault, s.status.cause⟩ := rfl
    _ = ⟨true, false, .noFault⟩ := by rw [hbusy, hfault, hi.cause.2 hfault]

/-- Completion (R198) of a command during which no fault was latched. -/
theorem inv_complete {s : State} (hf : s.status.fault = false) (hc : s.status.cause = .noFault) : Inv (complete s) where
  busy := rfl
  fault := hf
  cause := by simp [hf, hc]
  counters h := nomatch h

/-- Fault entry (R234) with either cause. -/
theorem inv_raise {c : Cause} (hc : c ≠ .noFault) (s : State) : Inv (raise c s) where
  busy := rfl
  fault := rfl
  cause := by simp [hc]
  counters h := nomatch h

theorem inv_reset : Inv State.reset where
  busy := rfl
  fault := rfl
  cause := by decide
  counters h := nomatch h

/-- Reset leaves the host's side of the ports alone (R261), and the invariant does not speak of it. -/
theorem inv_resetEdge (s : State) : Inv (resetEdge s) :=
  ⟨inv_reset.busy, inv_reset.fault, inv_reset.cause, nofun⟩

/-- A micro-step that is not enabled does nothing (R55, R236, R242). -/
theorem microStep_of_not_enabled (s : State) (h : s.enabled = false) : microStep s = s := by
  cases hr : s.running with
  | false => exact microStep_stopped s hr
  | true =>
    have hs : starved s = true := by simpa [State.enabled, hr] using h
    obtain ⟨hp, hl, hsrc, hq⟩ := (starved_iff s).1 hs
    rw [microStep_load s hp hl]
    simp [loadElement, hsrc, payloadNext_nil s hq]

/-- A command in progress goes on, or completes after its last add-back (R195, R198). -/
theorem microStep_running_or_complete {s : State} (hr : s.running = true) :
    (microStep s).running = true ∨ microStep s = complete (addBackH s) := by
  cases hp : s.phase with
  | idle => simp [running_iff, hp] at hr
  | halt => simp [running_iff, hp] at hr
  | load =>
    left
    by_cases hl : s.lcnt < blockElements s.opr
    · obtain ⟨-, -, hphase, -⟩ := loadElement_frame s
      simp [microStep_load s hp hl, running_iff, hphase, hp]
    · simp [microStep_endLoad s hp hl, endLoad_eq, running_iff]
  | sched => simp [microStep_sched s hp, running_iff]
  | round =>
    left
    by_cases hlt : s.t.val < 63
    · simp [microStep_round s hp, roundMicro_lt s hlt, running_iff, hp]
    · simp [microStep_round s hp, roundMicro_last s hlt, running_iff]
  | add =>
    rw [microStep_add s hp]
    by_cases hb : s.bidx + 1 < s.nblk
    · simp [addStep_more s hb, running_iff]
    · cases hd : secondPassDue s with
      | true => simp [addStep_secondPass s hb hd, running_iff]
      | false => exact .inr (addStep_last s hb hd)

/-- Every row of the sequencer keeps the invariant: the command goes on with its STATUS, completes, or waits. -/
theorem Inv.microStep {s : State} (hi : Inv s) : Inv (microStep s) := by
  cases he : s.enabled with
  | false => rwa [microStep_of_not_enabled s he]
  | true =>
    have hrun := ((enabled_iff s).1 he).1
    have hst := hi.status_of_running hrun
    rcases microStep_running_or_complete hrun with hr | hend
    · exact .of_running hr ((microStep_status_of_running s hr).trans hst) ((hi.counters hrun).microStep he hr)
    · rw [hend]
      exact inv_complete (by simp [hst]) (by simp [hst])

/-- Entry into the LOAD of block 0 by an accepted command word. -/
theorem inv_firstBlock {s : State} {N : Nat} (hst : s.status = ⟨true, false, .noFault⟩)
    (hcmd : blockCommand s.opr s.mlen) (hN : N = if hashCommand s.opr then nblocks s.mlen.toNat else 1)
    (h0 : s.rcnt = 0) : Inv (enterLoad .first 0 N s) :=
  .of_running rfl hst (countersOk_firstBlock hcmd hN h0)

/-- The first transition of every command, from a STATUS with no flag set. -/
theorem inv_start {i : Instr} {s t : State} (hst : s.status = ⟨false, false, .noFault⟩) (h : start i s = .next t) :
    Inv t := by
  have hacc : s.status.accepted = ⟨true, false, .noFault⟩ := by rw [hst]; rfl
  obtain ⟨-, rfl | ⟨-, rfl⟩ | ⟨rfl | rfl, rfl⟩ | ⟨rfl, rfl⟩ | ⟨⟨l, hl, rfl | rfl⟩, rfl⟩⟩ := start_next h
  · exact inv_raise (by decide) _
  · exact inv_complete (by simp [hst]) (by simp [hst])
  · exact inv_firstBlock hacc (.inl ⟨rfl, rfl⟩) rfl rfl
  · exact inv_firstBlock hacc (.inr (.inl ⟨rfl, rfl⟩)) rfl rfl
  · exact inv_firstBlock hacc (.inr (.inr (.inl ⟨rfl, rfl⟩))) rfl rfl
  · exact inv_firstBlock hacc (.inr (.inr (.inr ⟨.inl rfl, hl⟩))) rfl rfl
  · exact inv_firstBlock hacc (.inr (.inr (.inr ⟨.inr rfl, hl⟩))) rfl rfl

/-- Settles O24: a tick is a reset edge, a first transition, the fault entry of IllegalCommand or a row of the sequencer, and each
keeps the invariant. -/
theorem everyTickKeepsTheInvariant : Obligations.EveryTickKeepsTheInvariant := by
  intro s t hi h
  rcases tick_cases h with ⟨-, rfl⟩ | ⟨i, rest, hr, -, hs⟩ | ⟨op, len, rest, -, rfl⟩ | ⟨-, -, rfl⟩
  · exact inv_resetEdge s
  · obtain ⟨hst, -⟩ := hi.idle_of_ready hr
    exact inv_start (s := { s with cmdQ := rest }) hst hs
  · exact inv_raise (by decide) _
  · exact hi.microStep

/-- What every tick keeps holds after any number of ticks. -/
theorem ticks_induct {P : State → Prop} (hstep : ∀ s t, P s → tick s = .next t → P t) (n : Nat) {s t : State} (hs : P s)
    (h : ticks n s = .next t) : P t := by
  induction n generalizing s with
  | zero =>
    obtain rfl : s = t := by simpa [ticks] using h
    exact hs
  | succ n ih =>
    cases htick : tick s with
    | next u => exact ih (hstep s u hs htick) (ticks_succ_of_next htick n ▸ h)
    | fault f => cases f
    | refused r => simp [ticks, htick] at h

/-- Settles O25: a step is the reset edge or a run of ticks (`stepIsARunOfTicks`), and every tick keeps the invariant. -/
theorem everyStepKeepsTheInvariant : Obligations.EveryStepKeepsTheInvariant := by
  intro s t hi h
  cases hr : s.rst with
  | true => exact everyTickKeepsTheInvariant s t hi (by rw [tick_reset s hr, ← step_reset s hr, h])
  | false =>
    obtain ⟨n, hn⟩ := stepIsARunOfTicks s hr
    exact ticks_induct everyTickKeepsTheInvariant n hi (hn.trans h)

/-- Settles O23: no command is in progress and no fault latched at reset, and no compression. -/
theorem invariantsHoldAtReset : Obligations.InvariantsHoldAtReset :=
  ⟨inv_reset, nofun, nofun⟩

end Sys2Proof.Machine

/-! SUPPORT and PROOFS. Where H is written (R22), row by row of R195. -/

namespace Sys2Proof.Machine

theorem addStep_h (s : State) : (addStep s).h = addBack s.h s.work := by
  by_cases hb : s.bidx + 1 < s.nblk
  · simp [addStep_more s hb]
  · cases hd : secondPassDue s with
    | true => simp [addStep_secondPass s hb hd]
    | false => simp [addStep_last s hb hd]

/-- What a row of the sequencer does to H: the end of the LOAD of pass 1 makes it IV, ADD is the add-back, and the other rows leave
it alone. -/
theorem microStep_h (s : State) :
    (microStep s).h = s.h ∨
    (s.phase = .load ∧ s.pass = .second ∧ (microStep s).phase = .sched ∧ (microStep s).h = IV) ∨
    (s.phase = .add ∧ (microStep s).h = addBack s.h s.work) := by
  cases hp : s.phase with
  | idle => exact .inl (by simp [microStep, hp])
  | halt => exact .inl (by simp [microStep, hp])
  | load =>
    by_cases hl : s.lcnt < blockElements s.opr
    · rw [microStep_load s hp hl]
      obtain ⟨hh, -⟩ := loadElement_frame s
      exact .inl hh
    · rw [microStep_endLoad s hp hl, endLoad_eq]
      cases hpass : s.pass with
      | first => exact .inl (by simp)
      | second => exact .inr (.inl ⟨rfl, rfl, rfl, by simp⟩)
  | sched => exact .inl (by rw [microStep_sched s hp, schedStep_h])
  | round =>
    rw [microStep_round s hp]
    obtain ⟨hh, -⟩ := roundMicro_frame s
    exact .inl hh
  | add => exact .inr (.inr ⟨rfl, by rw [microStep_add s hp, addStep_h]⟩)

/-- What a command's first transition does to H: only INIT, MIDSTATE, HASH and DHASH write it, and they make it IV. -/
theorem start_h {i : Instr} {s t : State} (h : start i s = .next t) :
    t.h = s.h ∨
    (t.h = IV ∧ (i.opcode.toNat = 1 ∨ i.opcode.toNat = 4 ∨ i.opcode.toNat = 5 ∨ i.opcode.toNat = 6)) := by
  obtain ⟨-, rfl | ⟨rfl, rfl⟩ | ⟨-, rfl⟩ | ⟨rfl, rfl⟩ | ⟨⟨l, -, rfl | rfl⟩, rfl⟩⟩ := start_next h
  · exact .inl rfl
  · exact .inr ⟨rfl, .inl rfl⟩
  · exact .inl rfl
  · exact .inr ⟨rfl, .inr (.inl rfl)⟩
  · exact .inr ⟨rfl, .inr (.inr (.inl rfl))⟩
  · exact .inr ⟨rfl, .inr (.inr (.inr rfl))⟩

/-- Settles O28: the tick is one of the four of `tick_cases`, and each writes H as R22 lists or not at all. -/
theorem hIsWrittenInThreeWays : Obligations.HIsWrittenInThreeWays := by
  intro s t h hne
  rcases tick_cases h with ⟨hr, rfl⟩ | ⟨i, rest, -, hf, hs⟩ | ⟨op, len, rest, -, rfl⟩ | ⟨-, -, rfl⟩
  · exact .inl ⟨hr, rfl⟩
  · rcases start_h hs with hh | ⟨hh, hop⟩
    · exact absurd hh hne
    · exact .inr (.inl ⟨i, _, hf, hh, hop⟩)
  · exact absurd rfl hne
  · rcases microStep_h s with hh | hload | hadd
    · exact absurd hh hne
    · exact .inr (.inr (.inl hload))
    · exact .inr (.inr (.inr hadd))

end Sys2Proof.Machine

/-! SUPPORT and PROOFS. The fields of the 8-bit view of STATUS (R31). -/

namespace Sys2Proof.Machine

theorem Status.bits_busy (st : Status) : st.bits.getLsbD 0 = st.busy := by
  simp only [Status.bits, BitVec.getLsbD_append]
  simp

theorem Status.bits_fault (st : Status) : st.bits.getLsbD 1 = st.fault := by
  simp only [Status.bits, BitVec.getLsbD_append]
  simp

/-- The six bits above FAULT and BUSY: CAUSE and four zeros. -/
theorem Status.bits_aboveFault (st : Status) (start len : Nat) :
    st.bits.extractLsb' (start + 2) len = (0#4 ++ st.cause.code).extractLsb' start len :=
  calc st.bits.extractLsb' (start + 2) len
    _ = (0#4 ++ st.cause.code ++ BitVec.ofBool st.fault).extractLsb' (start + 1) len :=
      BitVec.extractLsb'_append_eq_of_le (Nat.le_add_left 1 _)
    _ = (0#4 ++ st.cause.code).extractLsb' start len := BitVec.extractLsb'_append_eq_of_le (Nat.le_add_left 1 _)

theorem Status.bits_cause (st : Status) : st.bits.extractLsb' 2 2 = st.cause.code :=
  (st.bits_aboveFault 0 2).trans BitVec.extractLsb'_append_eq_right

theorem Status.bits_upper (st : Status) : st.bits.extractLsb' 4 4 = 0#4 :=
  (st.bits_aboveFault 2 4).trans BitVec.extractLsb'_append_eq_left

theorem Cause.code_eq_zero_iff (c : Cause) : c.code = 0#2 ↔ c = .noFault := by
  cases c <;> decide

theorem Cause.code_ne_three (c : Cause) : c.code ≠ 3#2 := by
  cases c <;> decide

/-- In HALT the STATUS register is its cause with FAULT = 1 and BUSY = 0 (R33, R234). -/
theorem Inv.status_of_halt {s : State} (hi : Inv s) (hp : s.phase = .halt) : s.status = ⟨false, true, s.status.cause⟩ := by
  have hbusy : s.status.busy = false := hi.busy.trans (by simp [State.running, hp])
  have hfault : s.status.fault = true := hi.fault.trans (by simp [hp])
  calc s.status = ⟨s.status.busy, s.status.fault, s.status.cause⟩ := rfl
    _ = ⟨false, true, s.status.cause⟩ := by rw [hbusy, hfault]

/-- Settles O30: each clause is a field of the 8-bit view; in HALT the invariant fixes the rest. -/
theorem statusBitsAreAsSpecified : Obligations.StatusBitsAreAsSpecified := by
  intro s
  unfold State.statusO
  rw [Status.bits_busy, Status.bits_fault, Status.bits_cause, Status.bits_upper]
  refine ⟨rfl, rfl, ?_, ?_, ?_, Cause.code_ne_three _, rfl, ?_, ?_, ?_⟩
  · exact congrArg Cause.code
  · exact congrArg Cause.code
  · exact congrArg Cause.code
  · exact fun hi => (Cause.code_eq_zero_iff _).trans hi.cause
  · intro hi hp hc; rw [hi.status_of_halt hp, hc]; rfl
  · intro hi hp hc; rw [hi.status_of_halt hp, hc]; rfl

end Sys2Proof.Machine

/-! SUPPORT and PROOFS. The constant tables (R25, R26). -/

namespace Sys2Proof.Machine

/-- The eight words of a printed row, side by side, are the row. -/
theorem rowWord_append (row : BitVec 256) :
    rowWord row 0 ++ rowWord row 1 ++ rowWord row 2 ++ rowWord row 3 ++ rowWord row 4 ++ rowWord row 5 ++
      rowWord row 6 ++ rowWord row 7 = row := by
  unfold rowWord
  repeat rw [BitVec.extractLsb'_append_extractLsb'_eq_extractLsb' (by decide)]
  exact BitVec.extractLsb'_eq_self

/-- The eight words of K that a row of the table prints are the row (R25). -/
theorem K_row (r : Fin 8) :
    K[8 * r.val] ++ K[8 * r.val + 1] ++ K[8 * r.val + 2] ++ K[8 * r.val + 3] ++ K[8 * r.val + 4] ++
      K[8 * r.val + 5] ++ K[8 * r.val + 6] ++ K[8 * r.val + 7] = kRow r := by
  simp [K, Nat.mul_add_div, rowWord_append]

/-- Settles O48: the words are cut out of the printed rows, so the rows are as printed; that the words are the roots of the primes is
a comparison of integers, word by word, with the integer part of the root found by search. -/
theorem constantTablesAreAsPrinted : Obligations.ConstantTablesAreAsPrinted :=
  ⟨K_row 0, K_row 1, K_row 2, K_row 3, K_row 4, K_row 5, K_row 6, K_row 7, rowWord_append _, by decide +kernel,
    by decide +kernel⟩

end Sys2Proof.Machine

/-! SUPPORT and PROOFS. The payload channel (R53, R55): what the run of a command takes from it, and that the time at which the host
presents a unit does not matter. -/

namespace Sys2Proof.Machine

/-! Units that arrive behind those presented (R61). -/

/-- Units behind those presented do not make a core wait (R275). -/
theorem enabled_feed {s : State} (us : List Word) (he : s.enabled = true) : (s.feed us).enabled = true := by
  obtain ⟨hr, hs⟩ := (enabled_iff s).1 he
  refine (enabled_iff _).2 ⟨hr, ?_⟩
  rw [Bool.eq_false_iff] at hs ⊢
  intro hst
  obtain ⟨hp, hl, hsrc, hq⟩ := (starved_iff _).1 hst
  exact hs ((starved_iff s).2 ⟨hp, hl, hsrc, (List.append_eq_nil_iff.1 hq).1⟩)

/-- A LOAD step takes the first unit, which is the same with more units behind it. -/
theorem loadElement_feed (s : State) (us : List Word) (hp : s.phase = .load) (hl : s.lcnt < blockElements s.opr)
    (hs : starved s = false) : loadElement (s.feed us) = (loadElement s).feed us := by
  have hsrc' : elementSource (s.feed us) = elementSource s := elementSource_congr rfl rfl rfl rfl rfl rfl
  rcases loadElement_cases s hp hl hs with ⟨b, hsrc, e⟩ | ⟨u, rest, hsrc, hq, e⟩
  · rw [e, loadElement, hsrc', hsrc]
    rfl
  · have hq' : (s.feed us).plQ = u :: (rest ++ us) := by simp [State.feed, hq]
    rw [e, loadElement, hsrc', hsrc, payloadNext_cons _ _ _ hq']
    rfl

/-- An enabled micro-step and the arrival of units commute, row by row of R195. -/
theorem microStep_feed {s : State} (us : List Word) (he : s.enabled = true) :
    microStep (s.feed us) = (microStep s).feed us := by
  obtain ⟨hr, hs⟩ := (enabled_iff s).1 he
  have hp' : (s.feed us).phase = s.phase := rfl
  cases hp : s.phase with
  | idle => simp [running_iff, hp] at hr
  | halt => simp [running_iff, hp] at hr
  | load =>
    by_cases hl : s.lcnt < blockElements s.opr
    · rw [microStep_load s hp hl, microStep_load _ (hp'.trans hp) hl]
      exact loadElement_feed s us hp hl hs
    · rw [microStep_endLoad s hp hl, microStep_endLoad _ (hp'.trans hp) hl, endLoad_eq, endLoad_eq]
      rfl
  | sched =>
    rw [microStep_sched s hp, microStep_sched _ (hp'.trans hp)]
    rfl
  | round =>
    rw [microStep_round s hp, microStep_round _ (hp'.trans hp)]
    by_cases hlt : s.t.val < 63
    · rw [roundMicro_lt s hlt, roundMicro_lt (s.feed us) hlt]; rfl
    · rw [roundMicro_last s hlt, roundMicro_last (s.feed us) hlt]; rfl
  | add =>
    rw [microStep_add s hp, microStep_add _ (hp'.trans hp)]
    by_cases hb : s.bidx + 1 < s.nblk
    · rw [addStep_more s hb, addStep_more (s.feed us) hb]; rfl
    · cases hd : secondPassDue s with
      | true => rw [addStep_secondPass s hb hd, addStep_secondPass (s.feed us) hb hd]; rfl
      | false => rw [addStep_last s hb hd, addStep_last (s.feed us) hb hd]; rfl

/-- Settles O19: the micro-steps done before the units arrive are done in the same way with the units presented from the start. -/
theorem payloadArrivalTimeIsInvisible : Obligations.PayloadArrivalTimeIsInvisible := by
  intro s us
  induction s using run_induction with
  | stopped s he => rw [settle_of_not_enabled s he]
  | enabled s he ih =>
    calc settle ((settle s).feed us)
      _ = settle ((settle (microStep s)).feed us) := by rw [settle_microStep s he]
      _ = settle ((microStep s).feed us) := ih
      _ = settle (microStep (s.feed us)) := by rw [microStep_feed us he]
      _ = settle (s.feed us) := (settle_microStep _ (enabled_feed us he)).symm

/-! What a run takes (R53, R55). -/

/-- Between s and t units are taken from the front of the payload channel alone, in order, and RCNT counts them (R55). -/
def TakesFromFront (s t : State) : Prop := ∃ us, s.plQ = us ++ t.plQ ∧ t.rcnt = s.rcnt + us.length

theorem TakesFromFront.of_eq {s t : State} (hq : t.plQ = s.plQ) (hr : t.rcnt = s.rcnt) : TakesFromFront s t :=
  ⟨[], hq.symm, hr⟩

theorem TakesFromFront.trans {s t u : State} (h : TakesFromFront s t) (h' : TakesFromFront t u) : TakesFromFront s u := by
  obtain ⟨us, hq, hr⟩ := h
  obtain ⟨vs, hq', hr'⟩ := h'
  exact ⟨us ++ vs, by rw [hq, hq', List.append_assoc], by rw [hr', hr, List.length_append, Nat.add_assoc]⟩

theorem addStep_takesNothing (s : State) : TakesFromFront s (addStep s) := by
  by_cases hb : s.bidx + 1 < s.nblk
  · rw [addStep_more s hb]; exact .of_eq rfl rfl
  · cases hd : secondPassDue s with
    | true => rw [addStep_secondPass s hb hd]; exact .of_eq rfl rfl
    | false => rw [addStep_last s hb hd]; exact .of_eq rfl rfl

/-- Only the LOAD of an element from the payload channel takes a unit: the first (R195, R196). -/
theorem microStep_takesFromFront {s : State} (he : s.enabled = true) : TakesFromFront s (microStep s) := by
  obtain ⟨hr, hs⟩ := (enabled_iff s).1 he
  cases hp : s.phase with
  | idle => simp [running_iff, hp] at hr
  | halt => simp [running_iff, hp] at hr
  | load =>
    by_cases hl : s.lcnt < blockElements s.opr
    · rw [microStep_load s hp hl]
      rcases loadElement_cases s hp hl hs with ⟨b, -, e⟩ | ⟨u, rest, -, hq, e⟩ <;> rw [e]
      · exact .of_eq rfl rfl
      · exact ⟨[u], hq, rfl⟩
    · rw [microStep_endLoad s hp hl, endLoad_eq]; exact .of_eq rfl rfl
  | sched => rw [microStep_sched s hp]; exact .of_eq rfl rfl
  | round =>
    rw [microStep_round s hp]
    obtain ⟨-, -, -, -, -, hrcnt, -, -, -, -, -, -, -, hq, -⟩ := roundMicro_frame s
    exact .of_eq hq hrcnt
  | add => rw [microStep_add s hp]; exact addStep_takesNothing s

theorem settle_takesFromFront (s : State) : TakesFromFront s (settle s) :=
  settle_induct (fun _ he h => h.trans (microStep_takesFromFront he)) s (.of_eq rfl rfl)

/-- CMPB, CMPW and MIDSTATE take one unit an element of their one block (R83, R196). -/
theorem blockCommand.len_of_not_hashCommand {op : Opcode} {len : Len} (h : blockCommand op len)
    (hhash : hashCommand op = false) : len.toNat = blockElements op := by
  rcases h with ⟨rfl, hl⟩ | ⟨rfl, hl⟩ | ⟨rfl, hl⟩ | ⟨rfl | rfl, -⟩
  · exact hl
  · exact hl
  · exact hl
  · exact absurd hhash (by decide)
  · exact absurd hhash (by decide)

/-- RCNT is at most LEN at every point of a command (R197). -/
theorem CountersOk.rcnt_le {s : State} (h : CountersOk s) : s.rcnt ≤ s.mlen.toNat := by
  rw [h.units]
  cases hpass : s.pass with
  | second => simp [unitsTaken, hpass]
  | first =>
    cases hhash : hashCommand s.opr with
    | true => simp [unitsTaken, hpass, hhash]
    | false => simpa [unitsTaken, hpass, hhash, h.command.len_of_not_hashCommand hhash] using h.elements

/-- At the add-back of the last block of a pass the whole payload is taken (R197). -/
theorem CountersOk.rcnt_lastBlock {s : State} (h : CountersOk s) (hp : s.phase = .add) (hb : ¬ s.bidx + 1 < s.nblk) :
    s.rcnt = s.mlen.toNat := by
  have hload : s.phase ≠ .load := by simp [hp]
  cases hpass : s.pass with
  | second => simp [h.units, unitsTaken, hpass]
  | first =>
    cases hhash : hashCommand s.opr with
    | true =>
      have hblocks : s.nblk = nblocks s.mlen.toNat := by simpa [passBlocks, hpass, hhash] using h.blocks
      rw [h.rcnt_fullBlock hload hpass hhash]
      unfold nblocks at hblocks
      omega
    | false => simp [h.units, unitsTaken, hpass, hhash, h.full hload, h.command.len_of_not_hashCommand hhash]

theorem microsLeft_stopped (s : State) (h : s.running = false) : microsLeft s = 0 := by
  cases hp : s.phase <;> simp_all [microsLeft, State.running]

/-- A command in progress ends with the add-back of a last block alone: it is the only row with one micro-step left (R195, R198). -/
theorem lastBlock_of_microStep_stops {s : State} (he : s.enabled = true) (hstop : (microStep s).running = false) :
    s.phase = .add ∧ ¬ s.bidx + 1 < s.nblk := by
  have hone : microsLeft s = 1 := by rw [microsLeft_microStep s he, microsLeft_stopped _ hstop]
  cases hp : s.phase with
  | idle => simp [microsLeft, hp] at hone
  | halt => simp [microsLeft, hp] at hone
  | load => rw [microsLeft_load s hp] at hone; omega
  | sched => rw [microsLeft_sched s hp] at hone; omega
  | round => rw [microsLeft_round s hp] at hone; omega
  | add =>
    have hafter : microsAfterBlock s = 0 := by rw [microsLeft_add s hp] at hone; omega
    have hblocks : s.nblk - (s.bidx + 1) = 0 := by
      simp only [microsAfterBlock, blockMicros, Nat.add_eq_zero_iff, Nat.mul_eq_zero] at hafter
      omega
    exact ⟨rfl, by omega⟩

/-- The run of a command leaves it waiting with its counters as R30 and R197 say, or completes it with all of its payload taken
(R55, R198). -/
theorem CountersOk.settle {s : State} (h : CountersOk s) (hr : s.running = true) :
    ((settle s).running = true ∧ CountersOk (settle s)) ∨
    ((settle s).phase = .idle ∧ (settle s).rcnt = s.mlen.toNat) := by
  induction s using run_induction with
  | stopped s he => rw [settle_of_not_enabled s he]; exact .inl ⟨hr, h⟩
  | enabled s he ih =>
    rw [settle_microStep s he]
    cases hr' : (Machine.microStep s).running with
    | true =>
      obtain ⟨-, -, -, -, hmlen, -⟩ := microStep_frame s
      rw [← hmlen]
      exact ih (h.microStep he hr') hr'
    | false =>
      obtain ⟨hp, hb⟩ := lastBlock_of_microStep_stops he hr'
      have hend : Machine.microStep s = complete (addBackH s) :=
        (microStep_running_or_complete hr).resolve_left (by simp [hr'])
      rw [settle_not_running _ hr', hend]
      exact .inr ⟨rfl, h.rcnt_lastBlock hp hb⟩

/-- BUSY is 1 until the command ends: a run that ends in waiting keeps STATUS (R32, R247). -/
theorem settle_status_of_running (s : State) (h : (settle s).running = true) : (settle s).status = s.status := by
  refine settle_induct (P := fun t => t.running = true → t.status = s.status) ?_ s (fun _ => rfl) h
  intro t he ht hr
  rw [microStep_status_of_running t hr, ht ((enabled_iff t).1 he).1]

/-! The first transition of a command, and the whole command. -/

/-- A command that answers a next state is its first transition run to its end (R200). -/
theorem exec_next {i : Instr} {s t : State} (h : exec i s = .next t) : ∃ u, start i s = .next u ∧ t = settle u := by
  rw [exec_eq_settled_start] at h
  cases hs : start i s with
  | next u => rw [hs, settled_next] at h; injection h with h; exact ⟨u, rfl, h.symm⟩
  | fault f => cases f
  | refused r => rw [hs, settled_refused] at h; cases h

/-- What the first transition of a command leaves alone, RCNT and MLEN (R81, R233). -/
theorem start_frame {i : Instr} {s t : State} (h : start i s = .next t) :
    t.cmdQ = s.cmdQ ∧ t.rst = s.rst ∧ t.obs = s.obs ∧ t.plQ = s.plQ ∧ t.rcnt = 0 ∧ t.mlen = i.len := by
  obtain ⟨-, rfl | ⟨-, rfl⟩ | ⟨-, rfl⟩ | ⟨-, rfl⟩ | ⟨-, rfl⟩⟩ := start_next h
  all_goals exact ⟨rfl, rfl, rfl, rfl, rfl, rfl⟩

/-- A first transition faults, completes a command that takes no payload, or begins to load (R195 IDLE rows). -/
theorem start_phase {i : Instr} {s t : State} (h : start i s = .next t) :
    (t.phase = .halt ∧ t.status.fault = true) ∨ (t.phase = .idle ∧ i.len.toNat = 0) ∨
    (t.running = true ∧ t.status = s.status.accepted ∧ CountersOk t) := by
  obtain ⟨-, rfl | ⟨rfl, rfl⟩ | ⟨rfl | rfl, rfl⟩ | ⟨rfl, rfl⟩ | ⟨⟨l, hl, rfl | rfl⟩, rfl⟩⟩ := start_next h
  · exact .inl ⟨rfl, rfl⟩
  · exact .inr (.inl ⟨rfl, rfl⟩)
  · exact .inr (.inr ⟨rfl, rfl, countersOk_firstBlock (.inl ⟨rfl, rfl⟩) rfl rfl⟩)
  · exact .inr (.inr ⟨rfl, rfl, countersOk_firstBlock (.inr (.inl ⟨rfl, rfl⟩)) rfl rfl⟩)
  · exact .inr (.inr ⟨rfl, rfl, countersOk_firstBlock (.inr (.inr (.inl ⟨rfl, rfl⟩))) rfl rfl⟩)
  · exact .inr (.inr ⟨rfl, rfl, countersOk_firstBlock (.inr (.inr (.inr ⟨.inl rfl, hl⟩))) rfl rfl⟩)
  · exact .inr (.inr ⟨rfl, rfl, countersOk_firstBlock (.inr (.inr (.inr ⟨.inr rfl, hl⟩))) rfl rfl⟩)

/-- What every command leaves alone, and that the units it takes are the first on the channel, counted by RCNT (R53, R55). -/
theorem exec_frame {i : Instr} {s t : State} (h : exec i s = .next t) :
    t.cmdQ = s.cmdQ ∧ t.rst = s.rst ∧ t.obs = s.obs ∧ ∃ us, s.plQ = us ++ t.plQ ∧ t.rcnt = us.length := by
  obtain ⟨u, hu, rfl⟩ := exec_next h
  obtain ⟨hcmd, hrst, hobs, hq, h0, -⟩ := start_frame hu
  obtain ⟨hcmd', hrst', hobs', -⟩ := settle_frame u
  obtain ⟨us, hq', hcnt⟩ := settle_takesFromFront u
  exact ⟨hcmd'.trans hcmd, hrst'.trans hrst, hobs'.trans hobs, us, hq ▸ hq', by rw [hcnt, h0, Nat.zero_add]⟩

/-- The three ends of a command: a fault before any payload is taken, completion with all of it taken, or waiting in LOAD with BUSY
at 1 (R198, R233, R247). -/
theorem exec_ends {i : Instr} {s t : State} (h : exec i s = .next t) :
    (t.phase = .halt ∧ t.status.fault = true ∧ t.rcnt = 0) ∨ (t.phase = .idle ∧ t.rcnt = i.len.toNat) ∨
    (starved t = true ∧ t.status.busy = true ∧ t.rcnt ≤ i.len.toNat) := by
  obtain ⟨u, hu, rfl⟩ := exec_next h
  obtain ⟨-, -, -, -, h0, hlen⟩ := start_frame hu
  rcases start_phase hu with ⟨hp, hf⟩ | ⟨hp, hz⟩ | ⟨hr, hst, hc⟩
  · rw [settle_not_running u (by simp [State.running, hp])]
    exact .inl ⟨hp, hf, h0⟩
  · rw [settle_not_running u (by simp [State.running, hp])]
    exact .inr (.inl ⟨hp, h0.trans hz.symm⟩)
  · rcases hc.settle hr with ⟨hr', hc'⟩ | ⟨hp, hcnt⟩
    · obtain ⟨-, -, -, -, hmlen, -⟩ := settle_frame u
      refine .inr (.inr ⟨?_, ?_, ?_⟩)
      · simpa [State.enabled, hr'] using settle_end u
      · rw [settle_status_of_running u hr', hst, Status.accepted_busy]
      · rw [← hlen, ← hmlen]; exact hc'.rcnt_le
    · exact .inr (.inl ⟨hp, by rw [hcnt, hlen]⟩)

/-- Settles O20: n is RCNT, which counts the units taken from the front, and the three ends of a command say what it is. -/
theorem commandsTakeTheirPayloadFromTheFront : Obligations.CommandsTakeTheirPayloadFromTheFront := by
  intro s t i h
  obtain ⟨hcmd, hrst, hobs, us, hq, hcnt⟩ := exec_frame h
  have hle : t.rcnt ≤ s.plQ.length := by simp [hq, hcnt]
  have hdrop : t.plQ = s.plQ.drop t.rcnt := by simp [hq, hcnt]
  rcases exec_ends h with ⟨hp, -, h0⟩ | ⟨hp, hlen⟩ | ⟨hst, -, hlen⟩
  · exact ⟨hcmd, hrst, hobs, t.rcnt, by simp [h0], hle, hdrop, rfl, by simp [hp], fun _ => h0⟩
  · exact ⟨hcmd, hrst, hobs, t.rcnt, hlen.le, hle, hdrop, rfl, fun _ => hlen, by simp [hp]⟩
  · obtain ⟨hp, -⟩ := (starved_iff t).1 hst
    exact ⟨hcmd, hrst, hobs, t.rcnt, hlen, hle, hdrop, rfl, by simp [hp], by simp [hp]⟩

/-- A command with a legal LEN has a next state and raises nothing (R83). -/
theorem exec_wellFormed {i : Instr} {s : State} (hw : i.wellFormed = true) (hr : s.cmdReady = true) :
    ∃ t, exec i s = .next t ∧ t.status.fault = false := by
  obtain ⟨-, -, hf⟩ := (cmdReady_iff s).1 hr
  suffices h : ∃ u, start i s = .next u ∧ u.status.fault = s.status.fault by
    obtain ⟨u, hu, hfu⟩ := h
    obtain ⟨-, -, -, -, -, hfault, -⟩ := settle_frame u
    exact ⟨settle u, by rw [exec_eq_settled_start, hu, settled_next], by rw [hfault, hfu, hf]⟩
  rcases start_wellFormed hw with h | ⟨-, h⟩ | ⟨N, h⟩
  · exact ⟨_, h s hr, rfl⟩
  · exact ⟨_, h s hr, rfl⟩
  · exact ⟨_, h s hr, rfl⟩

/-- Settles O18: of the three ends of a command a legal LEN rules out the fault, and a payload short of LEN the completion; in the
third the core is starved, so that nothing is left on the channel. -/
theorem shortPayloadWaitsInLoad : Obligations.ShortPayloadWaitsInLoad := by
  intro s i hr hw hshort
  obtain ⟨hrst, -, -⟩ := (cmdReady_iff s).1 hr
  obtain ⟨t, ht, hfault⟩ := exec_wellFormed hw hr
  obtain ⟨hcmd, hrst', hobs, us, hq, hcnt⟩ := exec_frame ht
  have hus : us.length ≤ s.plQ.length := by simp [hq]
  rcases exec_ends ht with ⟨-, hf, -⟩ | ⟨-, hlen⟩ | ⟨hst, hbusy, -⟩
  · simp [hfault] at hf
  · omega
  · obtain ⟨hp, hl, hsrc, hnil⟩ := (starved_iff t).1 hst
    have hready : t.cmdReady = false := by simp [State.cmdReady, hbusy]
    have hplReady : t.plReady = true := by simp [State.plReady, hrst', hrst, (needsPayload_iff t).2 ⟨hp, hl, hsrc⟩]
    have hstep : step t = .next t := by
      rw [step_nothing (hrst'.trans hrst) (fetch_nothing (.inl hready)),
        settle_of_not_enabled t (by simp [State.enabled, hst])]
    exact ⟨t, ht, hp, hbusy, hfault, hnil, by simp [hcnt, hq, hnil], hplReady, hready, hcmd, hrst', hobs, hstep⟩

end Sys2Proof.Machine

/-! SUPPORT and PROOFS. The two views of the block buffer (R50, R51) and of `state_o` (R58). -/

namespace Sys2Proof.Machine

/-! Bytes of a word and words of four bytes (R122). -/

/-- The four bytes that a word is made of are its bytes, the first in bits 31:24. -/
theorem wordByte_be32 (b0 b1 b2 b3 : Byte) :
    wordByte (be32 b0 b1 b2 b3) 0 = b0 ∧ wordByte (be32 b0 b1 b2 b3) 1 = b1 ∧
    wordByte (be32 b0 b1 b2 b3) 2 = b2 ∧ wordByte (be32 b0 b1 b2 b3) 3 = b3 := by
  unfold wordByte be32
  refine ⟨?_, ?_, ?_, ?_⟩ <;> repeat rw [BitVec.extractLsb'_append_eq_of_le (by decide)]
  · exact BitVec.extractLsb'_eq_self
  all_goals exact BitVec.extractLsb'_append_eq_right

theorem be32_wordByte (w : Word) : be32 (wordByte w 0) (wordByte w 1) (wordByte w 2) (wordByte w 3) = w := by
  unfold be32 wordByte
  repeat rw [BitVec.extractLsb'_append_extractLsb'_eq_extractLsb' (by decide)]
  exact BitVec.extractLsb'_eq_self

/-! The block buffer. -/

theorem memRead4_eq_be32 (b : BlockBytes) (j : Fin 16) :
    memRead4 b j = be32 b[4 * j.val] b[4 * j.val + 1] b[4 * j.val + 2] b[4 * j.val + 3] := by
  simp [memRead4, pack]

/-- Byte k of word j of the buffer is its byte 4j+k (R50). -/
theorem wordByte_memRead4 (b : BlockBytes) (j : Fin 16) (k : Fin 4) :
    wordByte (memRead4 b j) k.val = b[4 * j.val + k.val] := by
  obtain ⟨h0, h1, h2, h3⟩ := wordByte_be32 b[4 * j.val] b[4 * j.val + 1] b[4 * j.val + 2] b[4 * j.val + 3]
  rw [memRead4_eq_be32]
  match k with
  | 0 => exact h0
  | 1 => exact h1
  | 2 => exact h2
  | 3 => exact h3

theorem unpack_pack (b : BlockBytes) : unpack (pack b) = b := by
  apply Vector.ext
  intro i hi
  have hbyte := wordByte_memRead4 b ⟨i / 4, by omega⟩ ⟨i % 4, by omega⟩
  simp only [Nat.div_add_mod] at hbyte
  rw [unpack, Vector.getElem_ofFn]
  exact hbyte

theorem pack_unpack (B : Block) : pack (unpack B) = B := by
  apply Vector.ext
  intro j hj
  simp [pack, unpack, Nat.mul_add_div, be32_wordByte]

theorem memRead1_memWrite1 (b : BlockBytes) (i j : Fin 64) (v : Byte) :
    memRead1 (memWrite1 b i.val v) j = if i = j then v else memRead1 b j := by
  simp only [Fin.ext_iff]
  exact memWrite1_get b i.val v j.val j.isLt

/-- A word write puts its four bytes at 4i to 4i+3, so that word i alone changes (R51). -/
theorem memRead4_memWrite4 (b : BlockBytes) (i j : Fin 16) (v : Word) :
    memRead4 (memWrite4 b i.val v) j = if i = j then v else memRead4 b j := by
  rw [memRead4_eq_be32, memRead4_eq_be32]
  by_cases h : i = j
  · subst h
    simp [memWrite4_get, Nat.mul_add_div, be32_wordByte]
  · have hv : j.val ≠ i.val := fun e => h (Fin.ext e.symm)
    simp [memWrite4_get, Nat.mul_add_div, h, hv]

/-- Settles O37: the word view is `be32` of the bytes, whose bytes they are. -/
theorem blockBufferViewsAgree : Obligations.BlockBufferViewsAgree := by
  refine ⟨memRead4_eq_be32, ?_, unpack_pack, pack_unpack, memRead1_memWrite1, memRead4_memWrite4⟩
  intro b j k i hi
  have hbyte : memRead1 b i = b[4 * j.val + k.val] := by simp only [memRead1, Fin.getElem_fin, hi]
  exact hbyte.trans (wordByte_memRead4 b j k).symm

/-! The output port. -/

/-- Word j of H on the 256 wires (R58). -/
theorem hashBits_word (S : HashState) (j : Fin 8) : (hashBits S).extractLsb' (224 - 32 * j.val) 32 = S[j] := by
  unfold hashBits
  fin_cases j <;> repeat rw [BitVec.extractLsb'_append_eq_of_le (by decide)]
  · exact BitVec.extractLsb'_eq_self
  all_goals exact BitVec.extractLsb'_append_eq_right

/-- Byte k of word j of H on the 256 wires: a slice of the slice of word j (R58). -/
theorem hashBits_byte (S : HashState) (j : Fin 8) (k : Fin 4) :
    (hashBits S).extractLsb' (248 - 8 * (4 * j.val + k.val)) 8 = wordByte S[j] k.val := by
  rw [wordByte, ← hashBits_word]
  ext b hb
  have hbit : 248 - 8 * (4 * j.val + k.val) + b = 224 - 32 * j.val + (24 - 8 * k.val + b) := by omega
  have hword : 24 - 8 * k.val + b < 32 := by omega
  simp only [BitVec.getElem_extractLsb', BitVec.getLsbD_extractLsb', hbit, hword, decide_true, Bool.true_and]

theorem State.stateO_of_not_busy {s : State} (hb : s.status.busy = false) : s.stateO = hashBits s.h := by
  simp [State.stateO, hb]

theorem State.dig_of_not_busy {s : State} (hb : s.status.busy = false) (j : Fin 8) (k : Fin 4) (i : Fin 32)
    (hi : i.val = 4 * j.val + k.val) : s.dig i = wordByte s.h[j] k.val := by
  rw [State.dig, State.stateO_of_not_busy hb, hi, hashBits_byte]

/-- `ser(H)` word by word (R186). -/
theorem ser_eq_flatMap (S : HashState) : ser S = (List.finRange 8).flatMap fun j => unbe32 S[j] := by
  have hwords : S.toList = (List.finRange 8).map fun j => S[j] := List.ext_getElem (by simp) (by simp)
  rw [ser, hwords, List.flatMap_map]

/-- The indices 0 to 31 in order are 4j to 4j+3, j by j. -/
theorem finRange32_eq_flatMap : List.finRange 32 = (List.finRange 8).flatMap fun j =>
    [⟨4 * j.val, by omega⟩, ⟨4 * j.val + 1, by omega⟩, ⟨4 * j.val + 2, by omega⟩, ⟨4 * j.val + 3, by omega⟩] := by
  decide

/-- Settles O32: the slices of the 256 wires are the words of H and their bytes. -/
theorem outputPortShowsHInBothViews : Obligations.OutputPortShowsHInBothViews := by
  intro s hb
  refine ⟨fun j => ?_, State.dig_of_not_busy hb, ?_⟩
  · rw [State.wordO, State.stateO_of_not_busy hb, hashBits_word]
  · rw [finRange32_eq_flatMap, ser_eq_flatMap, List.map_flatMap]
    congr 1
    funext j
    simp only [unbe32, List.map_cons, List.map_nil]
    rw [State.dig_of_not_busy hb j 0 _ rfl, State.dig_of_not_busy hb j 1 _ rfl, State.dig_of_not_busy hb j 2 _ rfl,
      State.dig_of_not_busy hb j 3 _ rfl]
    rfl

end Sys2Proof.Machine

/-! SUPPORT and PROOFS. What lies outside the core: the host's side of the ports (R62, R244) and the other cores (R68, R243). -/

namespace Sys2Proof.Machine

/-- A state with another host's side of the ports (R80) and another count of samples: the fields a host action can change. -/
def State.withHost (s : State) (rst : Bool) (cmdQ : List CommandWord) (plQ : List Word) (obs : Nat) : State :=
  { s with rst := rst, cmdQ := cmdQ, plQ := plQ, obs := obs }

section
variable {s : State} {rst : Bool} {cmdQ : List CommandWord} {plQ : List Word} {obs : Nat}

/-- The invariant of the flags and counters does not speak of the host's side of the ports. -/
theorem Inv.withHost (hi : Inv s) : Inv (s.withHost rst cmdQ plQ obs) where
  busy := hi.busy
  fault := hi.fault
  cause := hi.cause
  counters hr := { hi.counters hr with }

/-- Nor does the invariant of a compression in progress. -/
theorem ComputeInv.withHost (hi : ComputeInv s) : ComputeInv (s.withHost rst cmdQ plQ obs) where
  rounds := hi.rounds
  add := hi.add

end

/-- A sample of `state_o` advances the sample counter while BUSY = 1 (U2). -/
theorem HostAction.sampleState_effect (s : State) :
    HostAction.sampleState.effect s = { s with obs := if s.status.busy then s.obs + 1 else s.obs } := by
  cases hb : s.status.busy <;> simp [HostAction.effect, hb]

/-- A host action changes the host's side of the ports and the sample counter, and nothing else (R62, R244). -/
theorem HostAction.effect_eq_withHost (a : HostAction) (s : State) :
    a.effect s = s.withHost (a.effect s).rst (a.effect s).cmdQ (a.effect s).plQ (a.effect s).obs := by
  cases a with
  | presentCommand cw => rfl
  | presentUnit u => rfl
  | withdrawCommands => rfl
  | withdrawUnits => rfl
  | driveRst level => rfl
  | sampleStatus => rfl
  | sampleState => rw [HostAction.sampleState_effect]; rfl

/-- Settles O27: an action that answers a next state answers its effect, and those that the host may take at any time do. -/
theorem hostActionsLeaveTheCoreAlone : Obligations.HostActionsLeaveTheCoreAlone := by
  refine ⟨?_, fun _ _ => rfl, fun _ _ => rfl, fun _ _ => rfl, fun _ => rfl, ?_⟩
  · intro a s t h
    obtain ⟨-, rfl⟩ := HostAction.apply_next h
    rw [HostAction.effect_eq_withHost a s]
    exact ⟨rfl, Inv.withHost, ComputeInv.withHost, fun hb => by simp [State.stateO, State.withHost, hb]⟩
  · intro s
    exact ⟨_, HostAction.apply_permitted .sampleState s rfl, by rw [HostAction.sampleState_effect]⟩

/-- A step of core k among n is its own step, and its own place in the product is all that it writes (R243). -/
theorem stepCore_next_iff {n : Nat} {k : Fin n} {cs c : Cores n} :
    stepCore k cs = .next c ↔ ∃ s, step cs[k] = .next s ∧ c = cs.set k s := by
  unfold stepCore
  cases hs : step cs[k] with
  | next s => simp [eq_comm]
  | fault f => simp
  | refused r => simp

/-- Settles O47: a step writes one place of the product and reads it alone, and two writes to different places commute. -/
theorem coresAreIndependent : Obligations.CoresAreIndependent := by
  intro n cs c1 k j hne h
  have hval : k.val ≠ j.val := fun e => hne (Fin.ext e)
  obtain ⟨s, hs, rfl⟩ := stepCore_next_iff.1 h
  have hj : (cs.set k s)[j] = cs[j] := Vector.getElem_set_ne _ _ hval
  refine ⟨hj, by simpa using hs, ?_⟩
  intro c2 h2
  obtain ⟨u, hu, rfl⟩ := stepCore_next_iff.1 h2
  refine ⟨cs.set j u, stepCore_next_iff.2 ⟨u, hj ▸ hu, rfl⟩, stepCore_next_iff.2 ⟨s, ?_, ?_⟩⟩
  · have hk : (cs.set j u)[k] = cs[k] := Vector.getElem_set_ne _ _ hval.symm
    rw [hk, hs]
  · exact Vector.set_comm _ _ hval

end Sys2Proof.Machine

/-! SUPPORT and PROOFS. The command word (30_encoding.md R82, R84, R85, R90 step 1): its two fields, and the opcode map both ways. -/

namespace Sys2Proof

/-- A command word is its two fields (R82). -/
theorem opField_append_lenField (cw : CommandWord) : opField cw ++ lenField cw = cw :=
  (BitVec.extractLsb'_append_extractLsb'_eq_extractLsb' (by decide)).trans BitVec.extractLsb'_eq_self

/-- A command's opcode and LEN decode to it (R84). -/
theorem decodeFields_opcode_len (i : Instr) : decodeFields i.opcode i.len = .ok i := by
  cases i <;> rfl

/-- The opcode map row by row: a command that comes out has the opcode and the LEN that went in (R84). -/
theorem eq_opcode_len_of_decodeFields {op : Opcode} {len : Len} {i : Instr} (h : decodeFields op len = .ok i) :
    op = i.opcode ∧ len = i.len := by
  unfold decodeFields at h
  split_ifs at h
  all_goals
    cases h
    exact ⟨‹_›, rfl⟩

theorem decode_encode (i : Instr) : decode (encode i) = .ok i := by
  simp only [decode, encode, Laws.opField_append, Laws.lenField_append, decodeFields_opcode_len]

theorem eq_encode_of_decode {cw : CommandWord} {i : Instr} (h : decode cw = .ok i) : cw = encode i := by
  obtain ⟨hop, hlen⟩ := eq_opcode_len_of_decodeFields h
  rw [encode, ← hop, ← hlen, opField_append_lenField]

/-- Settles O2: the opcode map gives every command's fields back, and the word is its fields. -/
theorem decodeAndEncodeAreInverse : Obligations.DecodeAndEncodeAreInverse :=
  fun _ i => ⟨eq_encode_of_decode, fun h => h ▸ decode_encode i⟩

/-- A word whose opcode field is a command's decodes to that command with the word's LEN (R84). -/
theorem decode_of_opField {cw : CommandWord} {i : Instr} (hop : (opField cw).toNat = i.opcode.toNat)
    (hlen : i.len = lenField cw) : decode cw = .ok i := by
  rw [decode, BitVec.eq_of_toNat_eq hop, ← hlen, decodeFields_opcode_len]

/-- The opcodes of R85 are reserved: no row of the opcode map is theirs. -/
theorem decode_reserved {cw : CommandWord} (h : (opField cw).toNat = 0 ∨ 7 ≤ (opField cw).toNat) :
    decode cw = .error (.reservedOpcode (opField cw)) := by
  have hne : ∀ n, 1 ≤ n → n ≤ 6 → opField cw ≠ BitVec.ofNat 8 n := by
    intro n h1 h6 hop
    rw [hop, BitVec.toNat_ofNat] at h
    omega
  rw [decode, decodeFields, if_neg (hne 1 (by decide) (by decide)), if_neg (hne 2 (by decide) (by decide)),
    if_neg (hne 3 (by decide) (by decide)), if_neg (hne 4 (by decide) (by decide)),
    if_neg (hne 5 (by decide) (by decide)), if_neg (hne 6 (by decide) (by decide))]

/-- Settles O1: the six rows of the opcode map and the rest. -/
theorem everyCommandWordIsClassified : Obligations.EveryCommandWordIsClassified :=
  fun cw => ⟨(opField_append_lenField cw).symm, fun h => decode_of_opField h rfl, fun h => decode_of_opField h rfl,
    fun h => decode_of_opField h rfl, fun h => decode_of_opField h rfl, fun h => decode_of_opField h rfl,
    fun h => decode_of_opField h rfl, decode_reserved⟩

/-- Settles O3: fourteen fixed words, each decoded by evaluation. -/
theorem encodingsOfTheProgramsDecode : Obligations.EncodingsOfTheProgramsDecode := by
  unfold Obligations.EncodingsOfTheProgramsDecode
  decide

end Sys2Proof

/-! SUPPORT and PROOFS. The channels' handshakes (30_encoding.md R81, R85, R95, R96): the word a step takes, the commands that are
refused, the ready signals and the withdrawals. -/

namespace Sys2Proof.Machine

/-! The word that a step takes (R81, R90). -/

section
variable {s : State} {cw : CommandWord} {rest : List CommandWord}

theorem fetch_command {i : Instr} (hr : s.cmdReady = true) (hq : s.cmdQ = cw :: rest) (hd : decode cw = .ok i) :
    fetch s = .command i { s with cmdQ := rest } := by
  simp [fetch, hr, hq, hd]

theorem fetch_reserved {op : Opcode} (hr : s.cmdReady = true) (hq : s.cmdQ = cw :: rest)
    (hd : decode cw = .error (.reservedOpcode op)) : fetch s = .reserved op (lenField cw) { s with cmdQ := rest } := by
  simp [fetch, hr, hq, hd]

theorem step_accepts {i : Instr} (hr : s.cmdReady = true) (hq : s.cmdQ = cw :: rest) (hd : decode cw = .ok i) :
    step s = exec i { s with cmdQ := rest } := by
  obtain ⟨hrst, -, -⟩ := (cmdReady_iff s).1 hr
  exact step_command hrst (fetch_command hr hq hd)

end

/-- Settles O4: a step is what it takes from the command channel, and where it takes nothing it is the run of the command in
progress. -/
theorem stepRunsTheAcceptedCommand : Obligations.StepRunsTheAcceptedCommand :=
  ⟨fun _ _ _ _ => step_accepts, fun _ hrst hc => step_nothing hrst (fetch_nothing hc)⟩

/-- Settles O5: the word is accepted, its opcode is reserved, and acceptance and fault entry together write what is listed. -/
theorem reservedOpcodeTakesIllegalCommand : Obligations.ReservedOpcodeTakesIllegalCommand := by
  intro s cw rest hr hq hop
  obtain ⟨hrst, -, -⟩ := (cmdReady_iff s).1 hr
  rw [step_reserved hrst (fetch_reserved hr hq (decode_reserved hop))]
  rfl

/-! The commands that are refused (R83, U1, U11). -/

/-- A command of fixed size with an illegal LEN takes InvalidLength at its acceptance (R83, R231). -/
theorem start_illegalLen {i : Instr} {s : State} (hr : s.cmdReady = true) (hh : hashCommand i.opcode = false)
    (hw : i.wellFormed = false) : start i s = .next (raise .invalidLength (accept i.opcode i.len s)) := by
  cases i with
  | init l =>
    have hl : l ≠ 0#64 := by rintro rfl; cases hw
    simp [start, beginInit, whenReady_ready s _ hr, hl, Instr.opcode, Instr.len]
  | cmpb l =>
    have hl : l ≠ 64#64 := by rintro rfl; cases hw
    simp [start, beginCmpb, whenReady_ready s _ hr, hl, Instr.opcode, Instr.len]
  | cmpw l =>
    have hl : l ≠ 16#64 := by rintro rfl; cases hw
    simp [start, beginCmpw, whenReady_ready s _ hr, hl, Instr.opcode, Instr.len]
  | midstate l =>
    have hl : l ≠ 16#64 := by rintro rfl; cases hw
    simp [start, beginMidstate, whenReady_ready s _ hr, hl, Instr.opcode, Instr.len]
  | hash l => cases hh
  | dhash l => cases hh

/-- A message too long is refused at acceptance (R83, U1). -/
theorem start_messageTooLong {i : Instr} {s : State} (hr : s.cmdReady = true) (hh : hashCommand i.opcode = true)
    (hw : i.wellFormed = false) : start i s = .refused (.messageTooLong i.len) := by
  cases i with
  | init l => cases hh
  | cmpb l => cases hh
  | cmpw l => cases hh
  | midstate l => cases hh
  | hash l =>
    have hl : ¬ l.toNat < Config.messageBound := of_decide_eq_false hw
    simp [start, beginHash, whenReady_ready s _ hr, hl, Instr.len]
  | dhash l =>
    have hl : ¬ l.toNat < Config.messageBound := of_decide_eq_false hw
    simp [start, beginDhash, whenReady_ready s _ hr, hl, Instr.len]

/-- A command is refused where it is not accepted or its message is too long, and nowhere else (U1, U11). -/
theorem exec_refused_iff (i : Instr) (s : State) :
    (∃ r, exec i s = .refused r) ↔ s.cmdReady = false ∨ (hashCommand i.opcode = true ∧ i.wellFormed = false) := by
  cases hr : s.cmdReady with
  | false => exact ⟨fun _ => .inl rfl, fun _ => ⟨_, exec_notReady i s hr⟩⟩
  | true =>
    cases hw : i.wellFormed with
    | true =>
      obtain ⟨t, ht, -⟩ := exec_wellFormed hw hr
      simp [ht]
    | false =>
      cases hh : hashCommand i.opcode with
      | true => simp [exec_eq_settled_start, start_messageTooLong hr hh hw]
      | false => simp [exec_eq_settled_start, start_illegalLen hr hh hw]

/-- Settles O17: of the six commands HASH and DHASH have a bound on LEN beyond which they are refused. -/
theorem refusalsAreExactlyTheOutOfDomainCommands : Obligations.RefusalsAreExactlyTheOutOfDomainCommands := by
  intro s i
  refine ⟨?_, nofun, exec_notReady i s⟩
  rw [exec_refused_iff]
  refine or_congr_right ?_
  cases i with
  | init l => exact ⟨fun ⟨hh, _⟩ => (nomatch hh), False.elim⟩
  | cmpb l => exact ⟨fun ⟨hh, _⟩ => (nomatch hh), False.elim⟩
  | cmpw l => exact ⟨fun ⟨hh, _⟩ => (nomatch hh), False.elim⟩
  | midstate l => exact ⟨fun ⟨hh, _⟩ => (nomatch hh), False.elim⟩
  | hash l => exact ⟨fun ⟨_, hl⟩ => not_lt.1 (of_decide_eq_false hl), fun hl => ⟨rfl, decide_eq_false (not_lt.2 hl)⟩⟩
  | dhash l => exact ⟨fun ⟨_, hl⟩ => not_lt.1 (of_decide_eq_false hl), fun hl => ⟨rfl, decide_eq_false (not_lt.2 hl)⟩⟩

/-! The ready signals (R95, R96). -/

/-- Where the core is idle no flag is set, so that it is ready once `rst` is 0 (R33, R95). -/
theorem Inv.ready_of_idle {s : State} (hi : Inv s) (hrst : s.rst = false) (hp : s.phase = .idle) :
    s.cmdReady = true := by
  have hbusy : s.status.busy = false := by simp [hi.busy, State.running, hp]
  have hfault : s.status.fault = false := by simp [hi.fault, hp]
  exact (cmdReady_iff s).2 ⟨hrst, hbusy, hfault⟩

/-- A unit that a command in progress needs is one of its LEN (R96, R197): with it taken, RCNT is still at most LEN. -/
theorem CountersOk.rcnt_lt_of_needsPayload {s : State} (h : CountersOk s) (hn : needsPayload s = true) :
    s.rcnt < s.mlen.toNat := by
  obtain ⟨hp, hl, hsrc⟩ := (needsPayload_iff s).1 hn
  have hnext : CountersOk { s with lcnt := s.lcnt + 1, rcnt := s.rcnt + 1 } :=
    { h with elements := hl, full := absurd hp, units := h.rcnt_succ_of_payload hsrc }
  exact hnext.rcnt_le

/-- Settles O31: the ready signals are 1 where their definitions say, which the invariant ties to PHASE and to RCNT. -/
theorem readySignalsFollowThePhase : Obligations.ReadySignalsFollowThePhase := by
  intro s hi
  have hpl : s.plReady = true ↔ s.rst = false ∧ needsPayload s = true := by simp [State.plReady]
  refine ⟨⟨fun hr => ⟨?_, ?_⟩, fun ⟨hrst, hp⟩ => hi.ready_of_idle hrst hp⟩, cmdReady_iff s, ?_, ?_⟩
  · obtain ⟨hrst, -, -⟩ := (cmdReady_iff s).1 hr
    exact hrst
  · obtain ⟨-, hp⟩ := hi.idle_of_ready hr
    exact hp
  · rw [hpl, needsPayload_iff]
  · intro h
    obtain ⟨-, hn⟩ := hpl.1 h
    obtain ⟨hp, -, -⟩ := (needsPayload_iff s).1 hn
    exact (hi.counters (by simp [State.running, hp])).rcnt_lt_of_needsPayload hn

/-! What the host has presented (R81, R245 (1), R267; log entry 22). -/

/-- The one action that takes command words back is allowed while `rst` = 1 alone. -/
theorem HostAction.cmdQ_prefix_effect {a : HostAction} {s : State} (hrst : s.rst = false) (ha : a.permitted s = true) :
    s.cmdQ <+: (a.effect s).cmdQ := by
  cases a with
  | presentCommand cw => exact List.prefix_append _ _
  | withdrawCommands => exact absurd (hrst.symm.trans ha) nofun
  | presentUnit u => exact List.prefix_rfl
  | withdrawUnits => exact List.prefix_rfl
  | driveRst level => exact List.prefix_rfl
  | sampleStatus => exact List.prefix_rfl
  | sampleState => rw [HostAction.sampleState_effect]

/-- The one action that takes payload units back is allowed while `rst` = 1 or FAULT = 1 alone. -/
theorem HostAction.plQ_prefix_effect {a : HostAction} {s : State} (hrst : s.rst = false) (hf : s.status.fault = false)
    (ha : a.permitted s = true) : s.plQ <+: (a.effect s).plQ := by
  cases a with
  | presentUnit u => exact List.prefix_append _ _
  | withdrawUnits => simp [HostAction.permitted, hrst, hf] at ha
  | presentCommand cw => exact List.prefix_rfl
  | withdrawCommands => exact List.prefix_rfl
  | driveRst level => exact List.prefix_rfl
  | sampleStatus => exact List.prefix_rfl
  | sampleState => rw [HostAction.sampleState_effect]

/-- Settles O51: what is permitted takes nothing back where the duty holds, and the two withdrawals are permitted exactly where it
does not. -/
theorem presentedWordsAndUnitsStayUntilTheTransfer : Obligations.PresentedWordsAndUnitsStayUntilTheTransfer := by
  refine ⟨?_, ?_, ?_, ?_, ?_⟩
  · intro a s t hrst h
    obtain ⟨ha, rfl⟩ := HostAction.apply_next h
    exact ⟨HostAction.cmdQ_prefix_effect hrst ha, fun hf => HostAction.plQ_prefix_effect hrst hf ha⟩
  · intro s hrst
    exact HostAction.apply_refused .withdrawCommands s hrst
  · intro s hrst hf
    exact HostAction.apply_refused .withdrawUnits s (by simp [HostAction.permitted, hrst, hf])
  · intro s h
    exact HostAction.apply_permitted .withdrawUnits s (by simpa [HostAction.permitted] using h)
  · intro s hrst
    exact HostAction.apply_permitted .withdrawCommands s hrst

end Sys2Proof.Machine

/-! SUPPORT and PROOFS. The six commands as they complete: the state that each leaves when its payload is presented (R152, R153, R180,
R188, R189, R191). -/

namespace Sys2Proof.Machine

/-- A completed command leaves the core ready (R95, R198). -/
theorem Completed.cmdReady {op : Opcode} {len : Len} {s t : State} (h : Completed op len s t) (hr : s.cmdReady = true) :
    t.cmdReady = true := by
  simpa [State.cmdReady, h.rst, h.status] using hr

/-! The first transition of each command with a legal LEN (R195 IDLE rows). -/

/-- The LOAD of block 0 of N by an accepted command, with S in H. -/
def firstBlock (op : Opcode) (len : Len) (N : Nat) (S : HashState) (s : State) : State :=
  enterLoad .first 0 N { accept op len s with h := S }

section
variable {s : State} (hr : s.cmdReady = true)
include hr

theorem start_init : start (.init 0#64) s = .next (complete (loadIV (accept 0x01#8 0#64 s))) := by
  rw [start, beginInit, whenReady_ready s _ hr, if_pos rfl]

theorem start_cmpb : start (.cmpb 64#64) s = .next (firstBlock 0x02#8 64#64 1 s.h s) := by
  rw [start, beginCmpb, whenReady_ready s _ hr, if_pos rfl]
  rfl

theorem start_cmpw : start (.cmpw 16#64) s = .next (firstBlock 0x03#8 16#64 1 s.h s) := by
  rw [start, beginCmpw, whenReady_ready s _ hr, if_pos rfl]
  rfl

theorem start_midstate : start (.midstate 16#64) s = .next (firstBlock 0x04#8 16#64 1 IV s) := by
  rw [start, beginMidstate, whenReady_ready s _ hr, if_pos rfl]
  rfl

theorem start_hash {len : Len} (hl : len.toNat < Config.messageBound) :
    start (.hash len) s = .next (firstBlock 0x05#8 len (nblocks len.toNat) IV s) := by
  rw [start, beginHash, whenReady_ready s _ hr, if_pos hl]
  rfl

theorem start_dhash {len : Len} (hl : len.toNat < Config.messageBound) :
    start (.dhash len) s = .next (firstBlock 0x06#8 len (nblocks len.toNat) IV s) := by
  rw [start, beginDhash, whenReady_ready s _ hr, if_pos hl]
  rfl

end

/-- INIT completes at its acceptance, with IV in H and STATUS and the host's side of the ports as they were (R180, R200). -/
theorem exec_init_completes {s : State} (hr : s.cmdReady = true) :
    ∃ t, exec (.init 0#64) s = .next t ∧ t.h = IV ∧ Completed 0x01#8 0#64 s t := by
  obtain ⟨-, hbusy, -⟩ := (cmdReady_iff s).1 hr
  refine ⟨complete (loadIV (accept 0x01#8 0#64 s)), ?_, rfl, Status.completed_accepted s.status hbusy, rfl, rfl, rfl, rfl, rfl,
    rfl, rfl, rfl⟩
  rw [exec_eq_settled_start, start_init hr, settled_next, settle_complete]

/-! The frame of a command's run. -/

/-- The run from u, which an acceptance in s has begun, comes to t, before the add-back of the last block of a pass: all of the payload
is taken by then (R55, R197), and the host's side of the ports is otherwise as it was. -/
structure BeforeLastAdd (op : Opcode) (len : Len) (s u t : State) : Prop where
  run : settle u = settle (addStep t)
  last : ¬ t.bidx + 1 < t.nblk
  status : t.status = s.status.accepted
  opr : t.opr = op
  mlen : t.mlen = len
  rcnt : t.rcnt = len.toNat
  plQ : t.plQ = s.plQ.drop len.toNat
  cmdQ : t.cmdQ = s.cmdQ
  rst : t.rst = s.rst
  obs : t.obs = s.obs

/-- Where no second pass is due, that add-back completes the command (R198, R200). -/
theorem BeforeLastAdd.exec_completes {i : Instr} {s u t : State} (r : BeforeLastAdd i.opcode i.len s u t)
    (hd : secondPassDue t = false) (hr : s.cmdReady = true) (hs : start i s = .next u) :
    ∃ t', exec i s = .next t' ∧ t'.h = addBack t.h t.work ∧ Completed i.opcode i.len s t' := by
  obtain ⟨-, hbusy, -⟩ := (cmdReady_iff s).1 hr
  refine ⟨complete (addBackH t), ?_, rfl, ?_⟩
  · rw [exec_eq_settled_start, hs, settled_next, r.run, addStep_last t r.last hd, settle_complete]
  · exact {
      status := by rw [complete_status, addBackH_status, r.status, Status.completed_accepted s.status hbusy]
      phase := rfl
      opr := r.opr
      mlen := r.mlen
      rcnt := r.rcnt
      plQ := r.plQ
      cmdQ := r.cmdQ
      rst := r.rst
      obs := r.obs }

/-! CMPB, CMPW and MIDSTATE: one block, all of it payload. -/

/-- The one block of CMPB, up to its add-back (R152, R196). -/
theorem beforeLastAdd_byteBlock {s : State} (hq : 64 ≤ s.plQ.length) :
    BeforeLastAdd 0x02#8 64#64 s (firstBlock 0x02#8 64#64 1 s.h s)
      (readyToAdd (loadedTo (firstBlock 0x02#8 64#64 1 s.h s) s.payloadByteBlock 64 64)) := by
  have hblock : s.payloadByteBlock =
      Vector.ofFn fun i : Fin 64 => if i.val < 64 then unitByte (s.plQ.getD i 0) else 0#8 := by
    simp [State.payloadByteBlock]
  have hsrc : ∀ e < 64, elementSource { firstBlock 0x02#8 64#64 1 s.h s with lcnt := e } =
      if e < 64 then .payload else .generated 0#8 := fun e he => (if_pos he).symm
  refine ⟨?_, by simp [firstBlock], rfl, rfl, rfl, by simp [firstBlock], rfl, rfl, rfl, rfl⟩
  rw [hblock]
  exact settle_byteBlock _ rfl rfl rfl 64 (fun _ => 0#8) le_rfl hsrc hq

/-- The one block of CMPW and MIDSTATE, up to its add-back (R153, R191, R196). -/
theorem beforeLastAdd_wordBlock {s : State} {op : Opcode} (hop : op = 0x03#8 ∨ op = 0x04#8) (S : HashState)
    (hq : 16 ≤ s.plQ.length) :
    BeforeLastAdd op 16#64 s (firstBlock op 16#64 1 S s)
      (readyToAdd (loadedTo (firstBlock op 16#64 1 S s) (unpack s.payloadWordBlock) 16 16)) := by
  have hword : wordUnit op = true := by simpa [wordUnit] using hop
  have hsrc : ∀ e, elementSource { firstBlock op 16#64 1 S s with lcnt := e } = .payload :=
    fun e => if_pos (.inr hop)
  exact ⟨settle_wordBlock _ rfl hword rfl hsrc hq, by simp [firstBlock], rfl, rfl, rfl, by simp [firstBlock], rfl, rfl, rfl,
    rfl⟩

/-- CMPB with its payload presented compresses the block into H (R152). -/
theorem exec_cmpb_completes {s : State} (hr : s.cmdReady = true) (hq : 64 ≤ s.plQ.length) :
    ∃ t, exec (.cmpb 64#64) s = .next t ∧ t.h = compress s.h (pack s.payloadByteBlock) ∧
      Completed 0x02#8 64#64 s t :=
  (beforeLastAdd_byteBlock hq).exec_completes (i := .cmpb 64#64) rfl hr (start_cmpb hr)

/-- A word command with its payload presented compresses the words into the S that it started from. -/
theorem exec_wordCommand_completes {i : Instr} {s : State} (hop : i.opcode = 0x03#8 ∨ i.opcode = 0x04#8)
    (hlen : i.len = 16#64) (S : HashState) (hr : s.cmdReady = true) (hq : 16 ≤ s.plQ.length)
    (hs : start i s = .next (firstBlock i.opcode i.len 1 S s)) :
    ∃ t, exec i s = .next t ∧ t.h = compress S s.payloadWordBlock ∧ Completed i.opcode i.len s t := by
  have hd : secondPassDue (readyToAdd (loadedTo (firstBlock i.opcode i.len 1 S s) (unpack s.payloadWordBlock) 16 16)) =
      false := by rcases hop with h | h <;> simp [secondPassDue, firstBlock, h]
  have r := beforeLastAdd_wordBlock hop S hq
  rw [← hlen] at r
  have hblock : compress S (pack (unpack s.payloadWordBlock)) = compress S s.payloadWordBlock := by rw [pack_unpack]
  obtain ⟨t, hexec, hh, hcompl⟩ := r.exec_completes hd hr hs
  exact ⟨t, hexec, hh.trans hblock, hcompl⟩

/-- CMPW with its payload presented compresses the words into the H that was there (R153). -/
theorem exec_cmpw_completes {s : State} (hr : s.cmdReady = true) (hq : 16 ≤ s.plQ.length) :
    ∃ t, exec (.cmpw 16#64) s = .next t ∧ t.h = compress s.h s.payloadWordBlock ∧ Completed 0x03#8 16#64 s t :=
  exec_wordCommand_completes (.inl rfl) rfl s.h hr hq (start_cmpw hr)

/-- MIDSTATE with its payload presented compresses the words into IV (R191). -/
theorem exec_midstate_completes {s : State} (hr : s.cmdReady = true) (hq : 16 ≤ s.plQ.length) :
    ∃ t, exec (.midstate 16#64) s = .next t ∧ t.h = compress IV s.payloadWordBlock ∧ Completed 0x04#8 16#64 s t :=
  exec_wordCommand_completes (.inr rfl) rfl IV hr hq (start_midstate hr)

/-! HASH and DHASH: all blocks of the padded message, and the one block of the digest. -/

section
variable {s : State} {len : Len}

theorem length_payloadBytes {n : Nat} (hq : n ≤ s.plQ.length) : (s.payloadBytes n).length = n := by
  simp [State.payloadBytes, hq]

/-- Pass 0 of HASH and DHASH, up to its last add-back, which leaves the chain of the message in H (R185, R188). -/
theorem beforeLastAdd_firstPass {op : Opcode} (hop : op = 0x05#8 ∨ op = 0x06#8) (hq : len.toNat ≤ s.plQ.length) :
    ∃ t, BeforeLastAdd op len s (firstBlock op len (nblocks len.toNat) IV s) t ∧ t.pass = .first ∧
      addBack t.h t.work = chain (s.payloadBytes len.toNat) := by
  have hload : HashLoad s.plQ (firstBlock op len (nblocks len.toNat) IV s) 0 :=
    ⟨rfl, rfl, hop, rfl, rfl, rfl, by simp [firstBlock], by simp [firstBlock]⟩
  obtain ⟨t, hrun, hh, hlast, hpass, hopr, hmlen, hstatus, hplQ, hrcnt, hcmdQ, hrst, hobs⟩ :=
    settle_hashPass s.plQ ((len.toNat + 8) / 64) _ 0 hload hq (by simp [firstBlock, nblocks]) IV rfl
  refine ⟨t, ⟨hrun, hlast, hstatus, hopr, hmlen, hrcnt, hplQ, hcmdQ, hrst, hobs⟩, hpass, hh.trans ?_⟩
  rw [chain, length_payloadBytes hq]
  rfl

/-- The compression of IV with the second-pass block is the chain of the serialized State: its padded message is one block (R190). -/
theorem compress_block2 (S : HashState) : compress IV (pack (block2 S)) = chain (ser S) := by
  have hone : nblocks (ser S).length = 0 + 1 := by rw [ser_length]; rfl
  rw [chain, hone, chainFrom_succ, ← block2_eq_messageBlock]
  rfl

/-- DHASH's second pass, up to its add-back: one block that the core makes itself from the H that pass 0 leaves (R190, R196). -/
theorem BeforeLastAdd.secondPass {u t : State} (r : BeforeLastAdd 0x06#8 len s u t) (hpass : t.pass = .first) :
    BeforeLastAdd 0x06#8 len s u
      (readyToAdd (loadedTo (enterLoad .second 0 1 (addBackH t)) (block2 (addBackH t).h) 64 0)) := by
  have hdue : secondPassDue t = true := by simp [secondPassDue, r.opr, hpass]
  have hblock : block2 (addBackH t).h = Vector.ofFn fun i : Fin 64 =>
      if i.val < 0 then unitByte (t.plQ.getD i 0) else block2Byte (addBackH t).h i := rfl
  refine ⟨?_, by simp, r.status, r.opr, r.mlen, r.rcnt, r.plQ, r.cmdQ, r.rst, r.obs⟩
  rw [r.run, addStep_secondPass t r.last hdue, hblock]
  exact settle_byteBlock _ rfl (by simp [r.opr, wordUnit]) rfl 0 (block2Byte (addBackH t).h) (by decide)
    (fun _ _ => rfl) (Nat.zero_le _)

/-- HASH with its payload presented leaves the chain of the message in H (R188). -/
theorem exec_hash_completes (hr : s.cmdReady = true) (hl : len.toNat < 2 ^ 61) (hq : len.toNat ≤ s.plQ.length) :
    ∃ t, exec (.hash len) s = .next t ∧ t.h = chain (s.payloadBytes len.toNat) ∧ Completed 0x05#8 len s t := by
  obtain ⟨u, r, -, hh⟩ := beforeLastAdd_firstPass (s := s) (.inl rfl) hq
  have hd : secondPassDue u = false := by simp [secondPassDue, r.opr]
  obtain ⟨t, hexec, ht, hcompl⟩ := r.exec_completes (i := .hash len) hd hr (start_hash hr hl)
  exact ⟨t, hexec, ht.trans hh, hcompl⟩

/-- DHASH with its payload presented leaves the chain of the message's digest in H (R189). -/
theorem exec_dhash_completes (hr : s.cmdReady = true) (hl : len.toNat < 2 ^ 61) (hq : len.toNat ≤ s.plQ.length) :
    ∃ t, exec (.dhash len) s = .next t ∧ t.h = chain (ser (chain (s.payloadBytes len.toNat))) ∧
      Completed 0x06#8 len s t := by
  obtain ⟨u, r, hpass, hh⟩ := beforeLastAdd_firstPass (s := s) (.inr rfl) hq
  obtain ⟨t, hexec, ht, hcompl⟩ :=
    (r.secondPass hpass).exec_completes (i := .dhash len) (by simp [secondPassDue]) hr (start_dhash hr hl)
  refine ⟨t, hexec, ?_, hcompl⟩
  calc t.h = compress IV (pack (block2 (addBack u.h u.work))) := ht
    _ = chain (ser (chain (s.payloadBytes len.toNat))) := by rw [compress_block2, hh]

end

end Sys2Proof.Machine

/-! SUPPORT and PROOFS. The padded message byte by byte and block by block (R181 to R184): the sequence `pad(M)` and the generator
`paddedByte` say the same. -/

namespace Sys2Proof.Machine

@[simp] theorem length_be64 (n : Nat) : (be64 n).length = 8 := by simp [be64]

/-- The zero bytes fill the last block up to the eight bytes of the length (R181, R182). -/
theorem zeroCount_eq (L : Nat) : L + 1 + zeroCount L + 8 = 64 * nblocks L := by
  unfold zeroCount nblocks
  omega

theorem length_pad (M : List Byte) : (pad M).length = 64 * nblocks M.length := by
  rw [← zeroCount_eq]
  simp only [pad, List.length_append, List.length_cons, List.length_nil, List.length_replicate, length_be64]

/-- Byte k of `pad(M)`, part by part of R181, is the byte that the generator makes in the four cases of R183. -/
theorem getElem?_pad (M : List Byte) {k : Nat} (hk : k < 64 * nblocks M.length) :
    (pad M)[k]? = some (paddedByte M k) := by
  have hz := zeroCount_eq M.length
  simp only [pad, paddedByte_eq, padByte, List.getElem?_append, List.length_append, List.length_cons, List.length_nil,
    List.length_replicate]
  rcases (by omega : k < M.length ∨ k = M.length ∨ (M.length < k ∧ k < 64 * nblocks M.length - 8) ∨
    64 * nblocks M.length - 8 ≤ k) with hc | hc | ⟨hlt, hc⟩ | hc
  · rw [if_pos (by omega), if_pos (by omega), if_pos hc, if_pos hc]
    simp [hc]
  · rw [if_pos (by omega), if_pos (by omega), if_neg (by omega), if_neg (by omega), if_pos hc]
    simp [hc]
  · rw [if_pos (by omega), if_neg (by omega), if_neg (by omega), if_neg (by omega), if_pos hc, List.getElem?_replicate,
      if_pos (by omega)]
  · rw [if_neg (by omega), if_neg (by omega), if_neg (by omega), if_neg (by omega),
      show M.length + (0 + 1) + zeroCount M.length = 64 * nblocks M.length - 8 by omega]
    have hj : k - (64 * nblocks M.length - 8) < (be64 (8 * M.length)).length := by rw [length_be64]; omega
    simp [List.getElem?_eq_getElem hj]

/-- `pad(M)` is what the generator makes, byte after byte (R183). -/
theorem pad_eq_map_paddedByte (M : List Byte) : pad M = (List.range (64 * nblocks M.length)).map (paddedByte M) := by
  apply List.ext_getElem?
  intro k
  by_cases hk : k < 64 * nblocks M.length
  · simp [getElem?_pad M hk, hk]
  · simp [length_pad, Nat.not_lt.1 hk]

/-- The first n blocks, one after the other, are the first 64n bytes (R57, R184). -/
theorem flatMap_messageBlock (M : List Byte) (n : Nat) :
    ((List.range n).flatMap fun k => (messageBlock M k).toList) = (List.range (64 * n)).map (paddedByte M) := by
  induction n with
  | zero => rfl
  | succ n ih =>
    have hblock : (messageBlock M n).toList = (List.range 64).map fun i => paddedByte M (64 * n + i) :=
      List.ext_getElem (by simp) (by simp [messageBlock])
    rw [List.range_succ, List.flatMap_append, ih, List.flatMap_singleton, hblock, Nat.mul_succ, List.range_add,
      List.map_append, List.map_map]
    rfl

/-- The blocks of the padded message, in order (R184). -/
def messageBlocks (M : List Byte) : List BlockBytes := (List.range (nblocks M.length)).map (messageBlock M)

theorem length_messageBlocks (M : List Byte) : (messageBlocks M).length = nblocks M.length := by simp [messageBlocks]

theorem flatMap_messageBlocks (M : List Byte) : (messageBlocks M).flatMap Vector.toList = pad M := by
  rw [messageBlocks, List.flatMap_map, flatMap_messageBlock, pad_eq_map_paddedByte]

/-- The driver compresses these blocks in order (R185). -/
theorem chain_eq_foldl (M : List Byte) : chain M = (messageBlocks M).foldl (fun S Y => compress S (pack Y)) IV := by
  rw [messageBlocks, List.foldl_map]
  rfl

/-! Bytes presented as payload units (R54). -/

@[simp] theorem unitByte_byteUnit (b : Byte) : unitByte (byteUnit b) = b := by
  ext i hi
  have hi' : i < 32 := by omega
  simp [unitByte, byteUnit, hi, hi']

theorem payloadBytes_eq {s : State} {M : List Byte} {us : List Word} (hq : s.plQ = M.map byteUnit ++ us) :
    s.payloadBytes M.length = M := by
  simp [State.payloadBytes, hq, Function.comp_def]

theorem payloadByteBlock_eq {s : State} {Y : BlockBytes} {us : List Word} (hq : s.plQ = Y.toList.map byteUnit ++ us) :
    s.payloadByteBlock = Y := by
  apply Vector.ext
  intro i hi
  have hunit : s.plQ[i]? = some (byteUnit Y[i]) := by simp [hq, List.getElem?_append, hi]
  simp [State.payloadByteBlock, hunit]

end Sys2Proof.Machine

/-! SUPPORT and PROOFS. The equivalences of commands of R92: each side completes, with what the other leaves. -/

namespace Sys2Proof.Machine

/-- Settles O43: INIT leaves IV in H, from which CMPW compresses as MIDSTATE does. -/
theorem midstateIsInitThenCmpw : Obligations.MidstateIsInitThenCmpw := by
  intro s hr hq
  obtain ⟨t, ht, hh, hc⟩ := exec_midstate_completes hr hq
  obtain ⟨t1, ht1, hh1, hc1⟩ := exec_init_completes hr
  have hq1 : t1.plQ = s.plQ := hc1.plQ
  obtain ⟨t2, ht2, hh2, hc2⟩ := exec_cmpw_completes (hc1.cmdReady hr) (by rw [hq1]; exact hq)
  refine ⟨t, t1, t2, ht, ht1, ht2, ?_, ?_, ?_⟩
  · rw [hh, hh2, hh1, State.payloadWordBlock, State.payloadWordBlock, hq1]
  · rw [hc.status, hc2.status, hc1.status]
  · rw [hc.plQ, hc2.plQ, hq1]

/-- The digest that a core shows, put in front of its payload as byte units, is the serialized State as a message (R58, R186). -/
theorem digestUnits_eq {s : State} (hb : s.status.busy = false) :
    ((List.finRange 32).map fun i => byteUnit (s.dig i)) = (ser s.h).map byteUnit := by
  obtain ⟨-, -, hdig⟩ := outputPortShowsHInBothViews s hb
  rw [← hdig, List.map_map]
  rfl

/-- Settles O45: what is read between the two HASH is the serialized chain of the message, of which DHASH leaves the chain. -/
theorem dhashIsHashOfTheDigestRead : Obligations.DhashIsHashOfTheDigestRead := by
  intro s len hr hl hq
  obtain ⟨t, ht, hh, hc⟩ := exec_dhash_completes hr hl hq
  obtain ⟨t1, ht1, hh1, hc1⟩ := exec_hash_completes hr hl hq
  have hr1 := hc1.cmdReady hr
  obtain ⟨-, hbusy1, -⟩ := (cmdReady_iff t1).1 hr1
  rw [← hh1] at hh
  refine ⟨t, t1, ?_⟩
  rw [digestUnits_eq hbusy1]
  have hser : (32#64).toNat = (ser t1.h).length := (ser_length t1.h).symm
  obtain ⟨t2, ht2, hh2, hc2⟩ := exec_hash_completes (s := { t1 with plQ := (ser t1.h).map byteUnit ++ t1.plQ })
    (len := 32#64) hr1 (by decide) (by simp [ser_length])
  rw [hser, payloadBytes_eq rfl] at hh2
  refine ⟨t2, ht, ht1, ht2, hh.trans hh2.symm, ?_, ?_⟩
  · rw [hc.status, hc2.status, hc1.status]
  · rw [hc.plQ, hc2.plQ, hser, List.drop_left' (by simp), hc1.plQ]

/-! HASH as a run of command words. -/

theorem run_succ_of_next {s t : State} (h : step s = .next t) (n : Nat) :
    Host.Core.run Sys2Proof.core (n + 1) s = Host.Core.run Sys2Proof.core n t := by
  have hcore : Sys2Proof.core.step s = .next t := h
  simp only [Host.Core.run, hcore]

/-- A step that takes an encoded command from the channel runs it (R81, R90). -/
theorem step_encode {s : State} {i : Instr} {rest : List CommandWord} (hr : s.cmdReady = true)
    (hc : s.cmdQ = encode i :: rest) : step s = exec i { s with cmdQ := rest } :=
  step_accepts hr hc (decode_encode i)

/-- Blocks presented as payload, with a CMPB for each: they are compressed into H in order (R152). -/
theorem run_cmpb (us : List Word) (bs : List BlockBytes) (s : State) (hr : s.cmdReady = true) (hp : s.phase = .idle)
    (hc : s.cmdQ = List.replicate bs.length (encode (.cmpb 64)))
    (hq : s.plQ = (bs.flatMap Vector.toList).map byteUnit ++ us) :
    ∃ t, Host.Core.run Sys2Proof.core bs.length s = .next t ∧
      t.h = bs.foldl (fun S Y => compress S (pack Y)) s.h ∧ t.status = s.status ∧ t.phase = .idle ∧ t.cmdQ = [] ∧
      t.plQ = us := by
  induction bs generalizing s with
  | nil => exact ⟨s, rfl, rfl, rfl, hp, hc, hq⟩
  | cons Y bs ih =>
    rw [List.flatMap_cons, List.map_append, List.append_assoc] at hq
    obtain ⟨u, hu, hh, hcompl⟩ := exec_cmpb_completes
      (s := { s with cmdQ := List.replicate bs.length (encode (.cmpb 64)) }) hr (by simp [hq])
    have hblock : { s with cmdQ := List.replicate bs.length (encode (.cmpb 64)) }.payloadByteBlock = Y :=
      payloadByteBlock_eq hq
    have hleft : u.plQ = (bs.flatMap Vector.toList).map byteUnit ++ us := by
      rw [hcompl.plQ, hq]
      exact List.drop_left' (by simp)
    obtain ⟨t, ht, hht, hstatus, hphase, hcmdQ, hplQ⟩ :=
      ih u (hcompl.cmdReady hr) hcompl.phase hcompl.cmdQ hleft
    refine ⟨t, ?_, ?_, hstatus.trans hcompl.status, hphase, hcmdQ, hplQ⟩
    · rw [List.length_cons, run_succ_of_next ((step_encode hr hc).trans hu), ht]
    · rw [hht, hh, hblock, List.foldl_cons]

/-- Settles O44: INIT leaves IV in H, and each CMPB compresses the next block of the padded message into it, which is the chain that
HASH computes. -/
theorem hashIsInitThenCmpbPerBlock : Obligations.HashIsInitThenCmpbPerBlock := by
  intro s M us hi hr hlen hc hq
  have hM : (BitVec.ofNat 64 M.length).toNat = M.length := by
    rw [BitVec.toNat_ofNat, Nat.mod_eq_of_lt (by omega)]
  obtain ⟨u, hu, hhu, hcu⟩ := exec_init_completes
    (s := { s with cmdQ := List.replicate (nblocks M.length) (encode (.cmpb 64)) }) hr
  have hqu : u.plQ = ((messageBlocks M).flatMap Vector.toList).map byteUnit ++ us := by
    rw [hcu.plQ, flatMap_messageBlocks]
    exact hq
  have hcu' : u.cmdQ = List.replicate (messageBlocks M).length (encode (.cmpb 64)) := by
    rw [hcu.cmdQ, length_messageBlocks]
  obtain ⟨t, ht, hht, hstatus, hphase, hcmdQ, hplQ⟩ := run_cmpb us (messageBlocks M) u (hcu.cmdReady hr) hcu.phase hcu' hqu
  rw [hhu, ← chain_eq_foldl] at hht
  obtain ⟨t', ht', hht', hct'⟩ := exec_hash_completes (s := { s with plQ := M.map byteUnit ++ us })
    (len := BitVec.ofNat 64 M.length) hr (by omega) (by simp [hM])
  rw [hM, payloadBytes_eq rfl] at hht'
  have hst : t.status = s.status := hstatus.trans hcu.status
  refine ⟨t, t', ?_, ht', hht.trans hht'.symm, hht, hst.trans hct'.status.symm, hst, hphase.trans hct'.phase.symm, hcmdQ,
    hplQ, ?_⟩
  · rw [run_succ_of_next ((step_encode hr hc).trans hu), ← length_messageBlocks, ht]
  · rw [hct'.plQ, hM]
    exact List.drop_left' (by simp)

end Sys2Proof.Machine

/-! SUPPORT and PROOFS. The functions of 40_functions.md: arithmetic and rotation of words, the logical functions bit by bit, the
endian conversions (R110 to R123). -/

namespace Sys2Proof.Machine

/-! Rotation and shift (R113, R114). -/

/-- Bit i comes from bit i + n; past position 31 the left shift brings the bits that left at position 0 (R113). -/
theorem getLsbD_rotr (x : Word) {n i : Nat} (hn : n < 32) (hi : i < 32) :
    (rotr x n).getLsbD i = x.getLsbD ((i + n) % 32) := by
  simp only [rotr, BitVec.getLsbD_or, BitVec.getLsbD_ushiftRight, BitVec.getLsbD_shiftLeft]
  by_cases hwrap : i < 32 - n
  · have hmod : (i + n) % 32 = n + i := by omega
    simp [hwrap, hmod]
  · have hmod : (i + n) % 32 = i - (32 - n) := by omega
    have hout : x.getLsbD (n + i) = false := BitVec.getLsbD_of_ge x (n + i) (by omega)
    simp [hwrap, hmod, hout, hi]

/-- A logical shift lets in zeros at the top (R114). -/
theorem getLsbD_shr (x : Word) (n i : Nat) :
    (shr x n).getLsbD i = (decide (i + n < 32) && x.getLsbD (i + n)) := by
  rw [shr, BitVec.getLsbD_ushiftRight, Nat.add_comm]
  by_cases h : i + n < 32
  · simp [h]
  · simp [h, BitVec.getLsbD_of_ge x (i + n) (Nat.not_lt.1 h)]

/-- Settles O33: the bits of a rotation are `getLsbD_rotr`; the rest is what the operators of words do to their values. -/
theorem wordArithmeticMeansWhatTheSpecSays : Obligations.WordArithmeticMeansWhatTheSpecSays := by
  intro x y
  refine ⟨BitVec.toNat_add x y, fun _ _ _ => rfl, ?_, ?_, BitVec.toNat_not⟩
  · exact fun n i _ hn hi => getLsbD_rotr x (Nat.lt_succ_of_le hn) hi
  · intro n
    rw [shr, BitVec.toNat_ushiftRight, Nat.shiftRight_eq_div_pow]

/-! The logical functions (R116 to R121). -/

/-- Settles O34: each sigma is the exclusive or of its rotations and shift, whose bits are known. -/
theorem sigmaFunctionsBitByBit : Obligations.SigmaFunctionsBitByBit := by
  intro x i hi
  have hrot : ∀ n < 32, (rotr x n).getLsbD i = x.getLsbD ((i + n) % 32) := fun n hn => getLsbD_rotr x hn hi
  refine ⟨?_, ?_, ?_, ?_⟩
  · rw [ssig0, BitVec.getLsbD_xor, BitVec.getLsbD_xor, hrot 7 (by decide), hrot 18 (by decide), getLsbD_shr]
  · rw [ssig1, BitVec.getLsbD_xor, BitVec.getLsbD_xor, hrot 17 (by decide), hrot 19 (by decide), getLsbD_shr]
  · rw [bsig0, BitVec.getLsbD_xor, BitVec.getLsbD_xor, hrot 2 (by decide), hrot 13 (by decide), hrot 22 (by decide)]
  · rw [bsig1, BitVec.getLsbD_xor, BitVec.getLsbD_xor, hrot 6 (by decide), hrot 11 (by decide), hrot 25 (by decide)]

/-- A bit of x lets one of the two terms of `Ch` through (R120). -/
theorem getLsbD_ch (x y z : Word) {i : Nat} (hi : i < 32) :
    (ch x y z).getLsbD i = if x.getLsbD i then y.getLsbD i else z.getLsbD i := by
  simp only [ch, BitVec.getLsbD_xor, BitVec.getLsbD_and, BitVec.getLsbD_not, hi, decide_true, Bool.true_and]
  cases x.getLsbD i <;> simp

/-- The three products of `Maj` on one bit: all are 1, or one alone, exactly when two of the bits are 1 (R121). -/
theorem majority_of_products (a b c : Bool) :
    ((a && b) ^^ (a && c) ^^ (b && c)) = true ↔ 2 ≤ a.toNat + b.toNat + c.toNat := by
  revert a b c
  decide

/-- Settles O35: both functions work bit by bit, as `getLsbD_ch` and `majority_of_products` say. -/
theorem choiceAndMajorityBitByBit : Obligations.ChoiceAndMajorityBitByBit := by
  intro x y z i hi
  refine ⟨getLsbD_ch x y z hi, ?_⟩
  simp only [maj, BitVec.getLsbD_xor, BitVec.getLsbD_and]
  exact majority_of_products _ _ _

/-! The endian conversions (R122, R123). -/

/-- Appending a byte is the Horner step of the big-endian value. -/
theorem toNat_append_byte {n : Nat} (v : BitVec n) (b : Byte) : (v ++ b).toNat = v.toNat * 256 + b.toNat := by
  rw [BitVec.toNat_append, ← Nat.shiftLeft_add_eq_or_of_lt b.isLt, Nat.shiftLeft_eq]

theorem toNat_be32 (b0 b1 b2 b3 : Byte) :
    (be32 b0 b1 b2 b3).toNat = b0.toNat * 2 ^ 24 + b1.toNat * 2 ^ 16 + b2.toNat * 2 ^ 8 + b3.toNat := by
  rw [be32, toNat_append_byte, toNat_append_byte, toNat_append_byte]
  omega

theorem unbe32_be32 (b0 b1 b2 b3 : Byte) : unbe32 (be32 b0 b1 b2 b3) = [b0, b1, b2, b3] := by
  obtain ⟨h0, h1, h2, h3⟩ := wordByte_be32 b0 b1 b2 b3
  rw [unbe32, h0, h1, h2, h3]

/-- The first k bytes of `be64(n)` hold the upper 8k bits of n: each further byte is the next remainder (R123). -/
theorem bigEndian_take_be64 {n : Nat} (hn : n < 2 ^ 64) {k : Nat} (hk : k ≤ 8) :
    ((be64 n).take k).foldl (fun v b => v * 256 + b.toNat) 0 = n / 2 ^ (64 - 8 * k) := by
  induction k with
  | zero => exact (Nat.div_eq_of_lt hn).symm
  | succ k ih =>
    have hk' : k < (be64 n).length := by rw [length_be64]; omega
    have hbyte : (be64 n)[k].toNat = n / 2 ^ (56 - 8 * k) % 2 ^ 8 := by
      simp only [be64, List.getElem_map, List.getElem_range, BitVec.extractLsb'_toNat, BitVec.toNat_ofNat,
        Nat.mod_eq_of_lt hn, Nat.shiftRight_eq_div_pow]
    have hexp : 64 - 8 * k = 56 - 8 * k + 8 := by omega
    have hexp' : 64 - 8 * (k + 1) = 56 - 8 * k := by omega
    rw [← List.take_concat_get' _ _ hk', List.foldl_append, ih (by omega), List.foldl_cons, List.foldl_nil, hbyte, hexp, hexp',
      Nat.pow_add, ← Nat.div_div_eq_div_mul]
    exact Nat.div_add_mod' _ 256

theorem bigEndian_be64 {n : Nat} (hn : n < 2 ^ 64) : (be64 n).foldl (fun v b => v * 256 + b.toNat) 0 = n := by
  have h := bigEndian_take_be64 hn (Nat.le_refl 8)
  rw [List.take_of_length_le (length_be64 n).le] at h
  exact h.trans (Nat.div_one n)

/-- Settles O36: the bytes of a word and the words of four bytes are inverse, and all eight bytes of `be64(n)` hold n. -/
theorem endianConversionsAreInverse : Obligations.EndianConversionsAreInverse :=
  ⟨fun b0 b1 b2 b3 => ⟨toNat_be32 b0 b1 b2 b3, unbe32_be32 b0 b1 b2 b3⟩,
   fun w => ⟨rfl, be32_wordByte w⟩,
   fun n hn => ⟨length_be64 n, bigEndian_be64 hn⟩⟩

end Sys2Proof.Machine

/-! SUPPORT and PROOFS. The Compressor (41_compressor.md R141 to R154): the schedule word by word, the 64 rounds and the add-back,
what a compression in progress keeps, and the two commands that give the core one block. -/

namespace Sys2Proof.Machine

/-! The message schedule (R141 to R143). -/

/-- The schedule with its first n recurrence words computed. -/
def scheduleUpTo (B : Block) (n : Nat) : Schedule := ((List.finRange 48).take n).foldl expandWord (scheduleLoad B)

theorem scheduleUpTo_zero (B : Block) : scheduleUpTo B 0 = scheduleLoad B := by simp [scheduleUpTo]

theorem scheduleUpTo_succ (B : Block) (k : Fin 48) :
    scheduleUpTo B (k.val + 1) = expandWord (scheduleUpTo B k.val) k := by
  unfold scheduleUpTo
  rw [List.take_succ_eq_append_getElem (by simp)]
  simp

theorem scheduleUpTo_all (B : Block) : scheduleUpTo B 48 = schedule B := by
  rw [scheduleUpTo, schedule, List.take_of_length_le (by simp)]

/-- An expansion writes word k + 16 (R142). -/
theorem expandWord_written (W : Schedule) (k : Fin 48) :
    (expandWord W k)[k.val + 16] = W[k.val] + W[k.val + 9] + ssig0 W[k.val + 1] + ssig1 W[k.val + 14] := by
  simp [expandWord, add32]

/-- It leaves the words below alone. -/
theorem expandWord_below (W : Schedule) (k : Fin 48) {i : Nat} (hi : i < k.val + 16) :
    (expandWord W k)[i] = W[i] := by
  rw [expandWord, Vector.getElem_set_ne _ _ (by omega)]

/-- Once computed, a word of the schedule stays as it is: words are written in ascending order (R143). -/
theorem schedule_eq_scheduleUpTo (B : Block) {n i : Nat} (hn : n ≤ 48) (hi : i < n + 16) :
    (schedule B)[i] = (scheduleUpTo B n)[i] := by
  have hkeep : ∀ m (hm : n ≤ m), m ≤ 48 → (scheduleUpTo B m)[i] = (scheduleUpTo B n)[i] := by
    intro m hm
    induction m, hm using Nat.le_induction with
    | base => exact fun _ => rfl
    | succ m hm ih =>
      intro hm48
      rw [scheduleUpTo_succ B ⟨m, hm48⟩, expandWord_below _ _ (show i < m + 16 by omega), ih (by omega)]
  simpa only [scheduleUpTo_all] using hkeep 48 hn le_rfl

theorem schedule_load (B : Block) (i : Fin 16) : (schedule B)[i.val] = B[i] := by
  rw [schedule_eq_scheduleUpTo B (Nat.zero_le 48) (by omega), scheduleUpTo_zero]
  simp [scheduleLoad]

/-- The recurrence between the words of the finished schedule: each was computed from words that stay (R142). -/
theorem schedule_recurrence (B : Block) (k : Fin 48) :
    (schedule B)[k.val + 16] =
      (schedule B)[k.val] + (schedule B)[k.val + 9] + ssig0 (schedule B)[k.val + 1] + ssig1 (schedule B)[k.val + 14] := by
  have hstay : ∀ i (hi : i < k.val + 16), (schedule B)[i] = (scheduleUpTo B k.val)[i] :=
    fun i hi => schedule_eq_scheduleUpTo B (by omega) hi
  rw [schedule_eq_scheduleUpTo B (show k.val + 1 ≤ 48 by omega) (by omega), scheduleUpTo_succ, expandWord_written,
    hstay k.val (by omega), hstay (k.val + 9) (by omega), hstay (k.val + 1) (by omega), hstay (k.val + 14) (by omega)]

/-- The all-zero block: the recurrence makes zero of four zeros. -/
theorem schedule_zero (i : Nat) (hi : i < 64) : (schedule (Vector.replicate 16 0))[i] = 0 := by
  induction i using Nat.strong_induction_on with
  | _ i ih =>
    by_cases h16 : i < 16
    · simpa using schedule_load (Vector.replicate 16 0) ⟨i, h16⟩
    · obtain ⟨k, rfl⟩ : ∃ k, i = k + 16 := ⟨i - 16, by omega⟩
      have hrec := schedule_recurrence (Vector.replicate 16 0) ⟨k, by omega⟩
      simp only [ih k (by omega) (by omega), ih (k + 9) (by omega) (by omega), ih (k + 1) (by omega) (by omega),
        ih (k + 14) (by omega) (by omega)] at hrec
      rw [hrec]
      decide

/-- Settles O38: the first 16 words are loaded and stay, the others satisfy the recurrence, which keeps zeros zero. -/
theorem scheduleSatisfiesTheRecurrence : Obligations.ScheduleSatisfiesTheRecurrence :=
  ⟨schedule_load, schedule_recurrence, fun i => schedule_zero i.val i.isLt⟩

/-! The rounds and the add-back (R144 to R150). -/

/-- The round function satisfies the equations of R145. -/
theorem roundStep_equations (r : Work) (k w : Word) : RoundEquations k w r (roundStep r k w) :=
  ⟨rfl, rfl, rfl, rfl, rfl, rfl, rfl, rfl⟩

/-- Word by word, the add-back adds each working register into its word of H (R148). -/
theorem addBack_words (S : HashState) (r : Work) :
    (addBack S r)[0] = S[0] + r.a ∧ (addBack S r)[1] = S[1] + r.b ∧ (addBack S r)[2] = S[2] + r.c ∧
    (addBack S r)[3] = S[3] + r.d ∧ (addBack S r)[4] = S[4] + r.e ∧ (addBack S r)[5] = S[5] + r.f ∧
    (addBack S r)[6] = S[6] + r.g ∧ (addBack S r)[7] = S[7] + r.h :=
  ⟨rfl, rfl, rfl, rfl, rfl, rfl, rfl, rfl⟩

/-- Settles O49: the sequence is `roundsUpTo`, the registers after each number of rounds. -/
theorem compressIsSixtyFourRoundsAndAddBack : Obligations.CompressIsSixtyFourRoundsAndAddBack := by
  intro S B
  have h0 : roundsUpTo (schedule B) (workOf S) 0 = workOf S := roundsUpTo_zero _ _
  have hround : ∀ i : Fin 64, RoundEquations K[i] (schedule B)[i] (roundsUpTo (schedule B) (workOf S) i.val)
      (roundsUpTo (schedule B) (workOf S) (i.val + 1)) := by
    intro i
    rw [roundsUpTo_succ _ _ _ i.isLt]
    exact roundStep_equations _ _ _
  have hcompress : compress S B = addBack S (roundsUpTo (schedule B) (workOf S) 64) := by rw [compress, roundsUpTo_all]
  refine ⟨roundsUpTo (schedule B) (workOf S), ?_⟩
  rw [h0, hcompress]
  exact ⟨rfl, rfl, rfl, rfl, rfl, rfl, rfl, rfl, hround, addBack_words S _⟩

/-! The micro-steps of a compression (R195), and what they keep (R149). -/

/-- While a command is in progress a tick is a row of the sequencer (R95, R195). -/
theorem tick_busy {s : State} (hrst : s.rst = false) (hb : s.status.busy = true) : tick s = .next (microStep s) :=
  NoTransfer.tick_eq ⟨hrst, .inl (by simp [State.cmdReady, hb])⟩

/-- The next round number, or ADD after round 63 (R195). -/
theorem roundMicro_phase (s : State) (hp : s.phase = .round) :
    (s.t.val < 63 → (roundMicro s).phase = .round ∧ (roundMicro s).t.val = s.t.val + 1) ∧
    (s.t.val = 63 → (roundMicro s).phase = .add) := by
  constructor
  · intro hlt
    rw [roundMicro_lt s hlt]
    refine ⟨hp, ?_⟩
    simp only [Fin.val_add, Fin.val_one]
    omega
  · intro hlast
    rw [roundMicro_last s (by omega)]

theorem roundMicro_work (s : State) : (roundMicro s).work = roundStep s.work K[s.t] s.w[s.t] := by
  by_cases hlt : s.t.val < 63
  · rw [roundMicro_lt s hlt]
  · rw [roundMicro_last s hlt]

/-- After the add-back no compression is in progress: another block is to be loaded, or the command is complete (R195). -/
theorem addStep_phase (s : State) : (addStep s).phase = .load ∨ (addStep s).phase = .idle := by
  by_cases hb : s.bidx + 1 < s.nblk
  · exact .inl (by rw [addStep_more s hb, enterLoad_phase])
  · cases hd : secondPassDue s with
    | true => exact .inl (by rw [addStep_secondPass s hb hd, enterLoad_phase])
    | false => exact .inr (by rw [addStep_last s hb hd, complete_phase])

/-- Settles O50: with a command in progress a tick is the row of its phase. -/
theorem microStepsFollowTheRoundEquations : Obligations.MicroStepsFollowTheRoundEquations := by
  intro s hrst hb
  have htick := tick_busy hrst hb
  refine ⟨fun hp => ?_, fun hp => ?_, fun hp => ?_⟩
  · rw [microStep_sched s hp] at htick
    exact ⟨schedStep s, htick, rfl, rfl, rfl, rfl, rfl, rfl, rfl, rfl, rfl, rfl, rfl, rfl⟩
  · rw [microStep_round s hp] at htick
    obtain ⟨hh, -, -, -, -, -, -, -, -, hw, -⟩ := roundMicro_frame s
    refine ⟨roundMicro s, htick, ?_, hw, hh, roundMicro_phase s hp⟩
    rw [roundMicro_work]
    exact roundStep_equations _ _ _
  · rw [microStep_add s hp] at htick
    refine ⟨addStep s, htick, ?_⟩
    rw [addStep_h]
    exact addBack_words _ _

/-- Outside ROUND and ADD the invariant of a compression in progress says nothing. -/
theorem ComputeInv.of_phase {s : State} (hround : s.phase ≠ .round) (hadd : s.phase ≠ .add) : ComputeInv s where
  rounds h := absurd h hround
  add h := absurd h hadd

/-- SCHED starts the compression at round 0 (R144). -/
theorem computeInv_schedStep (s : State) : ComputeInv (schedStep s) where
  rounds _ := ⟨rfl, (roundsUpTo_zero _ _).symm⟩
  add h := nomatch h

/-- A round is the next one of the sequence that `roundsUpTo` counts (R146). -/
theorem ComputeInv.roundMicro {s : State} (hi : ComputeInv s) (hp : s.phase = .round) : ComputeInv (roundMicro s) := by
  obtain ⟨hw, hwork⟩ := hi.rounds hp
  have hnext : roundStep s.work K[s.t] s.w[s.t] = roundsUpTo s.w (workOf s.h) (s.t.val + 1) := by
    rw [roundsUpTo_succ _ _ _ s.t.isLt, hwork]
    rfl
  obtain ⟨hcount, hend⟩ := roundMicro_phase s hp
  by_cases hlt : s.t.val < 63
  · obtain ⟨hphase, ht⟩ := hcount hlt
    exact {
      rounds := fun _ => by
        rw [ht, roundMicro_work, hnext, roundMicro_lt s hlt]
        exact ⟨hw, rfl⟩
      add := fun h => by simp [hphase] at h }
  · have hlast : s.t.val = 63 := by omega
    exact {
      rounds := fun h => by simp [hend hlast] at h
      add := fun _ => by
        rw [roundMicro_work, hnext, hlast, roundsUpTo_all, roundMicro_last s hlt]
        exact ⟨hw, rfl⟩ }

/-- Every row of the sequencer keeps the compression in progress, starts it or ends it. -/
theorem ComputeInv.microStep {s : State} (hi : ComputeInv s) : ComputeInv (microStep s) := by
  cases hp : s.phase with
  | idle => rwa [microStep_stopped s (by simp [State.running, hp])]
  | halt => rwa [microStep_stopped s (by simp [State.running, hp])]
  | load =>
    by_cases hl : s.lcnt < blockElements s.opr
    · rw [microStep_load s hp hl]
      obtain ⟨-, -, hphase, -⟩ := loadElement_frame s
      exact .of_phase (by simp [hphase, hp]) (by simp [hphase, hp])
    · rw [microStep_endLoad s hp hl, endLoad_eq]
      exact .of_phase nofun nofun
  | sched =>
    rw [microStep_sched s hp]
    exact computeInv_schedStep s
  | round =>
    rw [microStep_round s hp]
    exact hi.roundMicro hp
  | add =>
    rw [microStep_add s hp]
    rcases addStep_phase s with h | h
    · exact .of_phase (by simp [h]) (by simp [h])
    · exact .of_phase (by simp [h]) (by simp [h])

/-- No first transition of a command stands in a compression: it faults, completes or begins to load (R195 IDLE rows). -/
theorem computeInv_start {i : Instr} {s t : State} (h : start i s = .next t) : ComputeInv t := by
  obtain ⟨-, rfl | ⟨-, rfl⟩ | ⟨-, rfl⟩ | ⟨-, rfl⟩ | ⟨-, rfl⟩⟩ := start_next h
  all_goals exact .of_phase nofun nofun

/-- Settles O26: a tick is a reset edge, a first transition, the fault entry of IllegalCommand or a row of the sequencer. -/
theorem everyTickKeepsTheCompression : Obligations.EveryTickKeepsTheCompression := by
  intro s t hi h
  rcases tick_cases h with ⟨-, rfl⟩ | ⟨i, rest, -, -, hs⟩ | ⟨op, len, rest, -, rfl⟩ | ⟨-, -, rfl⟩
  · exact .of_phase nofun nofun
  · exact computeInv_start hs
  · exact .of_phase nofun nofun
  · exact hi.microStep

/-- In ADD the add-back yields the compression of the block in the buffer (R149, R150). -/
theorem ComputeInv.addBack_eq_compress {s : State} (hi : ComputeInv s) (hp : s.phase = .add) :
    addBack s.h s.work = compress s.h s.blkw := by
  obtain ⟨hw, hwork⟩ := hi.add hp
  rw [hwork, hw, compress]

/-- Settles O29: ADD adds back registers that are those of the compression, and SCHED and ROUND do not write H. -/
theorem addBackYieldsTheCompression : Obligations.AddBackYieldsTheCompression := by
  intro s t hi hrst hb h
  rw [tick_busy hrst hb] at h
  obtain rfl : microStep s = t := by injection h
  refine ⟨fun hp => ?_, ?_⟩
  · rw [microStep_add s hp, addStep_h, hi.addBack_eq_compress hp]
  · rintro (hp | hp)
    · rw [microStep_sched s hp, schedStep_h]
    · rw [microStep_round s hp]
      obtain ⟨hh, -⟩ := roundMicro_frame s
      exact hh

/-! CMPB and CMPW (R152 to R154). -/

/-- Settles O9: one block of bytes loaded, compressed and added back is `exec_cmpb_completes`. -/
theorem cmpbCompressesTheByteBlock : Obligations.CmpbCompressesTheByteBlock :=
  fun _ hr hq => exec_cmpb_completes hr hq

/-- Settles O10: one block of words loaded, compressed and added back is `exec_cmpw_completes`. -/
theorem cmpwCompressesTheWordBlock : Obligations.CmpwCompressesTheWordBlock :=
  fun _ hr hq => exec_cmpw_completes hr hq

/-- Of the units in front of the channel CMPB reads the low bytes alone (R54). -/
theorem payloadByteBlock_of_unitBytes {s : State} {Y : BlockBytes} {us rest : List Word}
    (hY : us.map unitByte = Y.toList) (hq : s.plQ = us ++ rest) : s.payloadByteBlock = Y := by
  have hlen : us.length = 64 := by simpa using congrArg List.length hY
  apply Vector.ext
  intro i hi
  have hunit : s.plQ.getD i 0 = us[i] := by simp [hq, List.getElem?_append, hlen, hi]
  calc s.payloadByteBlock[i] = unitByte us[i] := by rw [State.payloadByteBlock, Vector.getElem_ofFn, hunit]
    _ = (us.map unitByte)[i]'(by simpa [hlen] using hi) := by rw [List.getElem_map]
    _ = Y[i] := by simp [hY]

/-- CMPW reads the words in front of the channel as they arrived (R56). -/
theorem payloadWordBlock_of_words {s : State} {B : Block} {rest : List Word} (hq : s.plQ = B.toList ++ rest) :
    s.payloadWordBlock = B := by
  apply Vector.ext
  intro j hj
  simp [State.payloadWordBlock, hq, List.getElem?_append]

/-- Settles O42: both commands complete, and the blocks they read are Y and its packed words. -/
theorem cmpbAndCmpwAgree : Obligations.CmpbAndCmpwAgree := by
  intro s s' Y us rest rest' hr hr' hh hY hq hq'
  have hlen : us.length = 64 := by simpa using congrArg List.length hY
  obtain ⟨t, ht, hth, hc⟩ := exec_cmpb_completes hr (by simp [hq, hlen])
  obtain ⟨t', ht', hth', hc'⟩ := exec_cmpw_completes hr' (by simp [hq'])
  rw [payloadByteBlock_of_unitBytes hY hq] at hth
  rw [payloadWordBlock_of_words hq', ← hh] at hth'
  refine ⟨t, t', ht, ht', hth.trans hth'.symm, hth, ?_, ?_⟩
  · rw [hc.plQ, hq]
    exact List.drop_left' hlen
  · rw [hc'.plQ, hq']
    exact List.drop_left' Vector.length_toList

end Sys2Proof.Machine

/-! PROOFS. The Hasher (42_hasher.md): its commands as they complete, the padded message and the second-pass block in closed form, and
where a step ends. -/

namespace Sys2Proof.Machine

/-! The commands of the Hasher (R180, R188, R189, R191). -/

/-- Settles O8: INIT is complete with its first transition, and BUSY is 0 again. -/
theorem initLoadsTheInitialConstants : Obligations.InitLoadsTheInitialConstants := by
  intro s hr
  obtain ⟨-, hbusy, -⟩ := (cmdReady_iff s).1 hr
  rw [exec_eq_settled_start, start_init hr, settled_next, settle_complete]
  simp only [complete, loadIV, accept, Status.completed_accepted s.status hbusy]

/-- Settles O11: one block of words loaded, compressed into IV and added back is `exec_midstate_completes`. -/
theorem midstateCompressesFromIV : Obligations.MidstateCompressesFromIV :=
  fun _ hr hq => exec_midstate_completes hr hq

/-- A completed command shows the serialized H on DIG (R58, R94, R186). -/
theorem Completed.digest {op : Opcode} {len : Len} {s t : State} (h : Completed op len s t) (hr : s.cmdReady = true) :
    (List.finRange 32).map t.dig = ser t.h := by
  obtain ⟨-, hbusy, -⟩ := (cmdReady_iff t).1 (h.cmdReady hr)
  obtain ⟨-, -, hdig⟩ := outputPortShowsHInBothViews t hbusy
  exact hdig

/-- Settles O12: `exec_hash_completes`, and `sha256(M)` is the serialized chain that is left in H. -/
theorem hashChainsThePaddedMessage : Obligations.HashChainsThePaddedMessage := by
  intro s len hr hl hq
  obtain ⟨t, ht, hh, hc⟩ := exec_hash_completes hr hl hq
  exact ⟨t, ht, hh, by rw [hc.digest hr, hh, sha256], hc⟩

/-- Settles O13: `exec_dhash_completes`, and the sha256 of the digest is the serialized chain that is left in H. -/
theorem dhashChainsTheDigest : Obligations.DhashChainsTheDigest := by
  intro s len hr hl hq
  obtain ⟨t, ht, hh, hc⟩ := exec_dhash_completes hr hl hq
  exact ⟨t, ht, hh, by rw [hc.digest hr, hh, sha256, sha256], hc⟩

/-! Where a step ends (R198, R247, R277). -/

/-- Without an enabled micro-step the core is idle, halted, or in LOAD without the unit it needs. -/
theorem phase_of_not_enabled {s : State} (h : s.enabled = false) :
    s.phase = .idle ∨ s.phase = .halt ∨ (s.phase = .load ∧ needsPayload s = true ∧ s.plQ = []) := by
  by_cases hr : s.running = true
  · have hst : starved s = true := by simpa [State.enabled, hr] using h
    obtain ⟨hp, hl, hsrc, hnil⟩ := (starved_iff s).1 hst
    exact .inr (.inr ⟨hp, (needsPayload_iff s).2 ⟨hp, hl, hsrc⟩, hnil⟩)
  · rw [running_iff] at hr
    tauto

/-- Each way a step can go (reset edge, command, IllegalCommand, continuation) runs until no micro-step is enabled (R9, R277). -/
theorem step_not_enabled {s t : State} (h : step s = .next t) : t.enabled = false := by
  cases hr : s.rst with
  | true =>
    obtain rfl : resetEdge s = t := by rw [step_reset s hr] at h; injection h
    rfl
  | false =>
    rcases fetch_cases s with ⟨hf, -⟩ | ⟨cw, rest, -, -, ⟨i, -, hf⟩ | ⟨op, -, hf⟩⟩
    · obtain rfl : settle s = t := by rw [step_nothing hr hf] at h; injection h
      exact settle_end s
    · rw [step_command hr hf] at h
      obtain ⟨u, -, rfl⟩ := exec_next h
      exact settle_end u
    · obtain rfl : illegalCommand op (lenField cw) { s with cmdQ := rest } = t := by
        rw [step_reserved hr hf] at h; injection h
      rfl

/-- Settles O22: a step ends where no micro-step is enabled. -/
theorem stepEndsIdleHaltedOrWaiting : Obligations.StepEndsIdleHaltedOrWaiting :=
  fun _ _ h => phase_of_not_enabled (step_not_enabled h)

/-! The number of blocks (R182). -/

/-- The padding has at least the 0x80 and the eight bytes of the length. -/
theorem add_nine_le_nblocks (L : Nat) : L + 9 ≤ 64 * nblocks L := by
  unfold nblocks
  omega

/-- Settles O40: floor((L + 8) / 64) + 1 is the least n with 64n > L + 8. -/
theorem blockCountIsTheSmallest : Obligations.BlockCountIsTheSmallest := by
  refine ⟨fun L => ⟨Nat.le_add_left 1 _, add_nine_le_nblocks L, fun n hn => ?_, rfl⟩, by decide⟩
  unfold nblocks
  omega

/-! The four cases of R183. -/

section
variable {M : List Byte} {k : Nat}

theorem paddedByte_of_lt (h : k < M.length) : paddedByte M k = M[k] := by
  simp [paddedByte, h]

/-- From the end of the message on, the byte is the pad generator's. -/
theorem paddedByte_of_le (h : M.length ≤ k) : paddedByte M k = padByte M.length k := by
  rw [paddedByte_eq, if_neg (by omega)]

theorem padByte_self (L : Nat) : padByte L L = 0x80#8 := if_pos rfl

theorem padByte_zero {L : Nat} (h : L < k) (hk : k < 64 * nblocks L - 8) : padByte L k = 0x00#8 :=
  (if_neg (by omega)).trans (if_pos hk)

/-- The last eight bytes are the bit length, most significant byte first (R123). -/
theorem padByte_length (L : Nat) {j : Nat} (hj : j < 8) :
    padByte L (64 * nblocks L - 8 + j) = (BitVec.ofNat 64 (8 * L)).extractLsb' (56 - 8 * j) 8 := by
  have hle := add_nine_le_nblocks L
  rw [padByte, if_neg (by omega), if_neg (by omega), Nat.add_sub_cancel_left]
  simp [be64, hj]

end

/-- Settles O39: `pad(M)` is what the generator makes (`getElem?_pad`), and the generator by the cases of R183. -/
theorem paddedMessageByteByByte : Obligations.PaddedMessageByteByByte := by
  intro M k _ hk
  have hle := add_nine_le_nblocks M.length
  refine ⟨length_pad M, getElem?_pad M hk, fun h => paddedByte_of_lt h, ?_, ?_, ?_⟩
  · rintro rfl
    rw [paddedByte_of_le le_rfl, padByte_self]
  · intro hlt hz
    rw [paddedByte_of_le hlt.le, padByte_zero hlt hz]
  · rintro j hj rfl
    rw [paddedByte_of_le (by omega), padByte_length M.length hj]

/-! The second-pass block of DHASH (R190). -/

/-- Byte k of word j of serialized words is byte 4j + k of the sequence (R186). -/
theorem getElem?_flatMap_unbe32 (ws : List Word) (j : Nat) (k : Fin 4) :
    (ws.flatMap unbe32)[4 * j + k.val]? = ws[j]?.map fun w => wordByte w k.val := by
  induction ws generalizing j with
  | nil => rfl
  | cons w ws ih =>
    rw [List.flatMap_cons]
    cases j with
    | zero =>
      rw [List.getElem?_append_left (by simp [unbe32])]
      fin_cases k <;> rfl
    | succ j =>
      have hnext : 4 * (j + 1) + k.val - (unbe32 w).length = 4 * j + k.val := by simp [unbe32]; omega
      rw [List.getElem?_append_right (by simp [unbe32]; omega), hnext, ih, List.getElem?_cons_succ]

theorem block2Byte_word (S : HashState) (j : Fin 8) (k : Fin 4) :
    block2Byte S (4 * j.val + k.val) = wordByte S[j] k.val := by
  have hbyte := getElem?_flatMap_unbe32 S.toList j k
  rw [← ser] at hbyte
  simp [block2Byte, paddedByte, hbyte]

theorem block2Byte_pad (S : HashState) {e : Nat} (he : 32 ≤ e) : block2Byte S e = padByte 32 e := by
  rw [block2Byte, paddedByte_of_le (by rwa [ser_length]), ser_length]

theorem pack_block2 (S : HashState) (j : Fin 16) :
    (pack (block2 S))[j] = be32 (block2Byte S (4 * j.val)) (block2Byte S (4 * j.val + 1)) (block2Byte S (4 * j.val + 2))
      (block2Byte S (4 * j.val + 3)) := by
  simp [pack, block2]

/-- The first eight words are those of the State: their bytes are the serializer's. -/
theorem pack_block2_word (S : HashState) (j : Fin 8) : (pack (block2 S))[j.val] = S[j] := by
  have h0 : block2Byte S (4 * j.val) = wordByte S[j] 0 := block2Byte_word S j 0
  have h1 : block2Byte S (4 * j.val + 1) = wordByte S[j] 1 := block2Byte_word S j 1
  have h2 : block2Byte S (4 * j.val + 2) = wordByte S[j] 2 := block2Byte_word S j 2
  have h3 : block2Byte S (4 * j.val + 3) = wordByte S[j] 3 := block2Byte_word S j 3
  have hword := pack_block2 S ⟨j.val, by omega⟩
  rw [h0, h1, h2, h3, be32_wordByte] at hword
  exact hword

/-- Word j of the padding of a 32-byte message. -/
def padWord (j : Nat) : Word :=
  be32 (padByte 32 (4 * j)) (padByte 32 (4 * j + 1)) (padByte 32 (4 * j + 2)) (padByte 32 (4 * j + 3))

/-- The last eight words are padding, whatever the State. -/
theorem pack_block2_pad (S : HashState) (j : Fin 16) (hj : 8 ≤ j.val) : (pack (block2 S))[j] = padWord j.val := by
  rw [pack_block2, block2Byte_pad S (by omega), block2Byte_pad S (by omega), block2Byte_pad S (by omega),
    block2Byte_pad S (by omega), padWord]

/-- The padded serialized State is one block, the second-pass block. -/
theorem block2_toList (S : HashState) : (block2 S).toList = pad (ser S) := by
  have hone : messageBlocks (ser S) = [messageBlock (ser S) 0] := by rw [messageBlocks, ser_length]; rfl
  rw [← flatMap_messageBlocks, hone, List.flatMap_singleton, block2_eq_messageBlock]

/-- Settles O41: eight words of the State, then eight of padding, which the pad generator makes from the length alone. -/
theorem secondPassBlockInWords : Obligations.SecondPassBlockInWords := by
  intro S
  have hzero : ∀ j : Fin 16, 9 ≤ j.val → j.val ≤ 14 → padWord j.val = 0x00000000#32 := by decide
  refine ⟨pack_block2_word S, ?_, fun j h9 h14 => ?_, ?_, block2_toList S⟩
  · exact (pack_block2_pad S 8 (by decide)).trans (by decide)
  · rw [pack_block2_pad S j (by omega), hzero j h9 h14]
  · exact (pack_block2_pad S 15 (by decide)).trans (by decide)

end Sys2Proof.Machine

/-! SUPPORT and PROOFS. The exceptions (60_exceptions.md R230 to R236): which LEN a command of fixed size faults on, what a fault
entry leaves alone, and that a halted or idle core does nothing. -/

namespace Sys2Proof.Machine

/-! The LEN that raises InvalidLength (R231). -/

/-- The LEN is not the one that a command of fixed size takes, row by row of R231; HASH and DHASH have no such row. -/
def illegalFixedLen (i : Instr) : Prop :=
  match i with
  | .init len => len.toNat ≠ 0
  | .cmpb len => len.toNat ≠ 64
  | .cmpw len => len.toNat ≠ 16
  | .midstate len => len.toNat ≠ 16
  | .hash _ => False
  | .dhash _ => False

/-- R231's rows are those of R83 without the two of the commands that pad. -/
theorem illegalFixedLen_iff (i : Instr) : illegalFixedLen i ↔ hashCommand i.opcode = false ∧ i.wellFormed = false := by
  cases i with
  | init len => simp [illegalFixedLen, Instr.wellFormed, Instr.opcode, hashCommand]
  | cmpb len => simp [illegalFixedLen, Instr.wellFormed, Instr.opcode, hashCommand]
  | cmpw len => simp [illegalFixedLen, Instr.wellFormed, Instr.opcode, hashCommand]
  | midstate len => simp [illegalFixedLen, Instr.wellFormed, Instr.opcode, hashCommand]
  | hash len => simp [illegalFixedLen, Instr.opcode, hashCommand]
  | dhash len => simp [illegalFixedLen, Instr.opcode, hashCommand]

/-- A command of fixed size with an illegal LEN is its acceptance and the fault entry, and nothing runs after it (R231, R234). -/
theorem exec_illegalFixedLen {i : Instr} {s : State} (hr : s.cmdReady = true) (hl : illegalFixedLen i) :
    exec i s = .next (raise .invalidLength (accept i.opcode i.len s)) := by
  obtain ⟨hh, hw⟩ := (illegalFixedLen_iff i).1 hl
  rw [exec_eq_settled_start, start_illegalLen hr hh hw, settled_next, settle_raise]

/-- Any other command that answers a next state leaves FAULT and CAUSE as they were: its LEN is legal, so that no row of its run
is a fault entry (R230, R231). -/
theorem exec_keeps_fault {i : Instr} {s t : State} (hl : ¬ illegalFixedLen i) (h : exec i s = .next t) :
    t.status.fault = s.status.fault ∧ t.status.cause = s.status.cause := by
  have hnr : ¬ ∃ r, exec i s = .refused r := by simp [h]
  rw [exec_refused_iff, not_or] at hnr
  obtain ⟨hready, hlong⟩ := hnr
  have hr : s.cmdReady = true := by simpa using hready
  have hw : i.wellFormed = true := by
    rw [illegalFixedLen_iff] at hl
    by_contra hw
    cases hh : hashCommand i.opcode with
    | true => exact hlong ⟨hh, by simpa using hw⟩
    | false => exact hl ⟨hh, by simpa using hw⟩
  obtain ⟨u, hu, rfl⟩ := exec_next h
  obtain ⟨-, -, -, -, -, hfault, hcause⟩ := settle_frame u
  rw [hfault, hcause]
  rcases start_wellFormed hw with hs | ⟨-, hs⟩ | ⟨N, hs⟩
  all_goals
    cases (hs s hr).symm.trans hu
    exact ⟨rfl, rfl⟩

/-- Settles O14: `exec_illegalFixedLen`, and acceptance and fault entry together write what is listed. -/
theorem illegalLengthTakesInvalidLength : Obligations.IllegalLengthTakesInvalidLength :=
  fun _ _ hr hl => exec_illegalFixedLen hr hl

/-- Settles O15: a command with an illegal LEN of R231 ends in InvalidLength, and every other with the CAUSE it began with, which is
0 in a core that is ready. -/
theorem invalidLengthIsRaisedExactlyByIllegalLengths : Obligations.InvalidLengthIsRaisedExactlyByIllegalLengths := by
  intro s i hi hr
  obtain ⟨hst, -⟩ := hi.idle_of_ready hr
  by_cases hl : illegalFixedLen i
  · have hexec := exec_illegalFixedLen hr hl
    refine ⟨⟨fun _ => hl, fun _ => ⟨_, hexec, rfl⟩⟩, fun t ht => ?_⟩
    cases hexec.symm.trans ht
    exact nofun
  · have hcause : ∀ t, exec i s = .next t → t.status.cause = .noFault := by
      intro t ht
      obtain ⟨-, hc⟩ := exec_keeps_fault hl ht
      rw [hc, hst]
    refine ⟨⟨fun ⟨t, ht, hc⟩ => ?_, fun h => absurd h hl⟩, fun t ht => ?_⟩
    · rw [hcause t ht] at hc
      cases hc
    · rw [hcause t ht]
      exact nofun

/-! Fault entry by a step (R233, R234, R235). -/

/-- A step that sets FAULT took a command word from the channel, and is its acceptance and the fault entry (R234). -/
theorem step_faults {s t : State} (hf : s.status.fault = false) (h : step s = .next t) (ht : t.status.fault = true) :
    ∃ c op len rest, c ≠ Cause.noFault ∧ t = raise c (accept op len { s with cmdQ := rest }) := by
  by_cases hr : s.rst = true
  · cases (step_reset s hr).symm.trans h
    cases ht
  · rw [Bool.not_eq_true] at hr
    rcases fetch_cases s with ⟨hn, -⟩ | ⟨cw, rest, hready, -, ⟨i, -, hc⟩ | ⟨op, -, hc⟩⟩
    · cases (step_nothing hr hn).symm.trans h
      obtain ⟨-, -, -, -, -, hfault, -⟩ := settle_frame s
      simp [hfault, hf] at ht
    · rw [step_command hr hc] at h
      by_cases hl : illegalFixedLen i
      · cases (exec_illegalFixedLen (s := { s with cmdQ := rest }) hready hl).symm.trans h
        exact ⟨.invalidLength, i.opcode, i.len, rest, nofun, rfl⟩
      · obtain ⟨hfault, -⟩ := exec_keeps_fault hl h
        simp [hfault, hf] at ht
    · cases (step_reserved hr hc).symm.trans h
      exact ⟨.illegalCommand, op, lenField cw, rest, nofun, rfl⟩

/-- Settles O16: acceptance and fault entry write neither H nor the payload channel, and leave BUSY at 0, so that `state_o` shows
H. -/
theorem aFaultKeepsHAndThePayload : Obligations.AFaultKeepsHAndThePayload := by
  intro s t _ hf h ht
  obtain ⟨c, op, len, rest, hc, rfl⟩ := step_faults hf h ht
  exact ⟨rfl, State.stateO_of_not_busy rfl, rfl, rfl, rfl, hc⟩

/-! The halted and the idle core (R236, R242). -/

/-- With no transfer and no command in progress neither level of the model changes anything. -/
theorem NoTransfer.stays {s : State} (h : NoTransfer s) (hr : s.running = false) : step s = .next s ∧ tick s = .next s :=
  ⟨by rw [step_nothing h.rst (fetch_nothing h.channel), settle_not_running s hr],
    by rw [h.tick_eq, microStep_stopped s hr]⟩

/-- Settles O6: FAULT = 1 means HALT, where nothing is accepted and no command is in progress; in IDLE no command is in progress
either. -/
theorem haltedAndIdleCoresStay : Obligations.HaltedAndIdleCoresStay := by
  refine ⟨fun s hi hrst hf => ?_, fun s hrst hp hq => ?_⟩
  · have hp : s.phase = .halt := by simpa [hf] using hi.fault
    have hready : s.cmdReady = false := by simp [State.cmdReady, hf]
    have hpl : s.plReady = false := by simp [State.plReady, needsPayload, hp]
    exact ⟨hready, hpl, NoTransfer.stays ⟨hrst, .inl hready⟩ (by simp [State.running, hp])⟩
  · exact NoTransfer.stays ⟨hrst, .inr hq⟩ (by simp [State.running, hp])

end Sys2Proof.Machine

/-! SUPPORT and PROOFS. Reset (70_reset_and_hazards.md R260 to R262, 60_exceptions.md R237): what the ports show while `rst` = 1 and
after the reset edge. -/

namespace Sys2Proof.Machine

/-! No transfer can happen while `rst` = 1 (R260). -/

theorem State.cmdReady_of_rst {s : State} (h : s.rst = true) : s.cmdReady = false := by simp [State.cmdReady, h]

theorem State.plReady_of_rst {s : State} (h : s.rst = true) : s.plReady = false := by simp [State.plReady, h]

/-! The reset State on the ports (R38, R261). -/

/-- IV, word by word as R26 prints it. -/
theorem IV_words :
    IV = #v[0x6a09e667, 0xbb67ae85, 0x3c6ef372, 0xa54ff53a, 0x510e527f, 0x9b05688c, 0x1f83d9ab, 0x5be0cd19] := by decide

theorem hashBits_IV :
    hashBits IV = 0x6a09e667bb67ae853c6ef372a54ff53a510e527f9b05688c1f83d9ab5be0cd19#256 := by rw [IV_words]; decide

theorem State.reset_statusO : State.reset.statusO = 0x00#8 := by decide

theorem resetEdge_statusO (s : State) : (resetEdge s).statusO = 0x00#8 := State.reset_statusO

theorem resetEdge_stateO (s : State) : (resetEdge s).stateO = hashBits IV := State.stateO_of_not_busy rfl

/-- Once `rst` falls after the reset edge, the core can accept a command. -/
theorem resetEdge_released_cmdReady (s : State) : ({ resetEdge s with rst := false } : State).cmdReady = true :=
  (cmdReady_iff _).mpr ⟨rfl, rfl, rfl⟩

/-- Once `rst` falls after the reset edge, the core takes no payload unit: it is not in LOAD. -/
theorem resetEdge_released_plReady (s : State) : ({ resetEdge s with rst := false } : State).plReady = false := rfl

/-- Settles O7: with `rst` = 1 both levels of the model take the reset edge from any state. -/
theorem resetTakesTheResetState : Obligations.ResetTakesTheResetState := by
  intro s h
  have hstep := step_reset s h
  have htick : tick s = step s := (tick_reset s h).trans hstep.symm
  exact ⟨State.cmdReady_of_rst h, State.plReady_of_rst h, htick, resetEdge s, hstep, IV_words, resetEdge_statusO s, rfl,
    (resetEdge_stateO s).trans hashBits_IV, resetEdge_released_cmdReady s, resetEdge_released_plReady s, rfl, rfl, rfl⟩

end Sys2Proof.Machine
